-- ==== Sys2Proof/Word.lean ====
section
/-! DEFINITION. The word types of the core: what a transaction moves, what an entry of each buffer holds. -/

namespace Sys2Proof

/-- The 32-bit word of every host transaction (R53), and the width of a WB entry (R35). -/
abbrev Word := BitVec 32

/-- One sample of IN: an unsigned 8-bit value (R34). -/
abbrev Byte := BitVec 8

/-- One entry of OUT: a 16-bit two's-complement value (R36). -/
abbrev Half := BitVec 16

/-- A byte offset in the core's 4 KiB window (R50, R82). -/
abbrev Offset := BitVec 12

end Sys2Proof
end

