-- ==== Sys2Proof/Config.lean ====
section
/-! DEFINITION. What the spec leaves open: the contents of buffer entries not written since reset, and the platform's
base address. Each is an opaque constant without a body, so no proof can see a value of it. -/

namespace Sys2Proof

/-- FREE VALUE (93_implementation_defined.md U1, R44): the byte that IN entry `b` holds after the `r`-th reset, until it is
written. Log entry 1. -/
opaque Config.unwrittenIn : (r b : Nat) → Byte

/-- FREE VALUE (U1, R44): the word that WB entry `n = 64*c + k` holds after the `r`-th reset, until it is written. Log
entry 1. -/
opaque Config.unwrittenWb : (r n : Nat) → Word

/-- FREE VALUE (U1, R44): the 16-bit value that OUT entry `n = 64*c + k` holds after the `r`-th reset, until it is written.
Log entry 1. -/
opaque Config.unwrittenOut : (r n : Nat) → Half

/-- OPEN parameter of the platform (R51, U6): which 4 KiB page the window stands in. Log entry 9. -/
opaque Config.basePage : Nat

/-- BASE, the platform address of the window: 4 KiB aligned (R51), otherwise open. -/
def Config.base : Nat := 4096 * Config.basePage

end Sys2Proof
end

