-- ==== Sys2Proof/Machine/Arith.lean ====
section
/-! DEFINITION. The arithmetic primitives of R10 to R12, on ℤ. -/

namespace Sys2Proof.Machine

/-- `sgn(x)` of R11: -1 below 0, else 1. -/
def sgn (x : Int) : Int := if x < 0 then -1 else 1

/-- `rnd_shr(x, n)` of R11: x / 2^n to the nearest integer, ties away from zero. -/
def rndShr (x : Int) (n : Nat) : Int := sgn x * (((x.natAbs + 2 ^ (n - 1)) / 2 ^ n : Nat) : Int)

/-- `div_rha(a, d)` of R11: a / d to the nearest integer, ties away from zero, for an even d > 0. -/
def divRha (a : Int) (d : Nat) : Int := sgn a * (((a.natAbs + d / 2) / d : Nat) : Int)

/-- `bits32(x)` of R10: the 32-bit pattern of x. Storing it in a two's-complement entry is `wrap32`. -/
def bits32 (x : Int) : Word := BitVec.ofInt 32 x

/-- `wrap32(x)` of R10: the value in [-2^31, 2^31 - 1] congruent to x modulo 2^32. -/
def wrap32 (x : Int) : Int := (bits32 x).toInt

/-- Four bytes as one word, the first in bits 7:0 (R56: little-endian). -/
def packBytes (b0 b1 b2 b3 : Byte) : Word := b3 ++ b2 ++ b1 ++ b0

/-- Byte `b` of a word, bits 8b+7 : 8b (R56). -/
def byteOf (d : Word) (b : Nat) : Byte := d.extractLsb' (8 * b) 8

/-- The sum of eight terms: one accumulation of a DCT pass (R105). -/
def sum8 (f : Nat → Int) : Int := f 0 + f 1 + f 2 + f 3 + f 4 + f 5 + f 6 + f 7

end Sys2Proof.Machine
end

