-- ==== Sys2Proof/Syntax.lean ====
section
/-! DEFINITION. The command set: one constructor per row of spec/opcode_table.json. -/

namespace Sys2Proof

/-- The five commands (R77). A command word carries no operand fields and no immediates (R80), so no constructor takes an
argument: every operand comes from CTRL and the buffers. -/
inductive Instr where
  /-- color-space converter (R90, R92) -/
  | csc
  /-- level shifter (R97) -/
  | lsh
  /-- separable 2D DCT (R105) -/
  | dct
  /-- quantizer (R120) -/
  | qnt
  /-- the whole pipeline: CSC, LSH, DCT, QNT as one command (R135) -/
  | run
  deriving DecidableEq, Repr

end Sys2Proof
end

