-- ==== Sys2Proof/WellFormed.lean ====
section
/-! DEFINITION. The checks on what a host may write: a command word (R76, R77), the arguments of a host program's
pseudo-instructions (R84). -/

namespace Sys2Proof

/-- RSV, bits 31:4 of a command word, must be 0 (R76). -/
abbrev WellFormed.reservedBitsClear (d : Word) : Prop := d.toNat / 16 = 0

/-- OP, bits 3:0 of a command word, names one of the five commands (R77). -/
abbrev WellFormed.opcodeAssigned (d : Word) : Prop := 1 ≤ d.toNat % 16 ∧ d.toNat % 16 ≤ 5

/-- A legal command word: RSV is 0 and OP is assigned (R76, R77, R79). -/
abbrev WellFormed.commandWord (d : Word) : Prop :=
  WellFormed.reservedBitsClear d ∧ WellFormed.opcodeAssigned d

/-- `WIN w`: an IN word number, w in 0..47 (R84). -/
abbrev WellFormed.inWord (w : Nat) : Prop := w < 48

/-- A plane number, c in 0..2, of `WWB`, `RWB`, `ROUT` and `FILLWB` (R84). -/
abbrev WellFormed.plane (c : Nat) : Prop := c < 3

/-- A block position, k in 0..63, of `WWB`, `RWB` and `ROUT` (R14, R84). -/
abbrev WellFormed.position (k : Nat) : Prop := k < 64

/-- Well-formedness of an instruction: nothing to check. The constructors carry no operands (R80), so every term of `Instr`
is one of the five commands of R77. -/
abbrev WellFormed.instr : Instr → Prop
  | .csc | .lsh | .dct | .qnt | .run => True

end Sys2Proof
end

