-- ==== Sys2Proof/Decode.lean ====
section
/-! DEFINITION. The decoder of command words (R76 to R79), the encoder written from the same table, and the host's
`decodeTableWord`. -/

namespace Sys2Proof

/-- Why a word is ILLEGAL (R78, R79). Both reasons give the same error, CmdError(ILLEGAL_CMD). -/
inductive Illegal where
  /-- bits 31:4 are not 0 (R76) -/
  | reservedBits
  /-- OP is 0x0 or 0x6 to 0xF (R79) -/
  | reservedOpcode
  deriving DecidableEq, Repr

/-- OP, bits 3:0 of a command word (R76). -/
def opField (d : Word) : BitVec 4 := d.extractLsb' 0 4

/-- RSV, bits 31:4 of a command word (R76). -/
def rsvField (d : Word) : BitVec 28 := d.extractLsb' 4 28

/-- `decode(d)` of R78: total, every 32-bit word yields a command or ILLEGAL with its reason. -/
def decode (d : Word) : Except Illegal Instr :=
  if rsvField d ≠ 0 then .error .reservedBits
  else
    match (opField d).toNat with
    | 1 => .ok .csc
    | 2 => .ok .lsh
    | 3 => .ok .dct
    | 4 => .ok .qnt
    | 5 => .ok .run
    | _ => .error .reservedOpcode

/-- The OP value of a command: column OP of the map of R77. -/
def opcode : Instr → BitVec 4
  | .csc => 0x1#4
  | .lsh => 0x2#4
  | .dct => 0x3#4
  | .qnt => 0x4#4
  | .run => 0x5#4

/-- The command word of a command: RSV = 0 above OP (R76). -/
def encode (i : Instr) : Word := 0#28 ++ opcode i

/-- The instruction the decoder reads from an opcode-table row's bits. A command word is one 32-bit word (R75), so `w`, cut
to the row's `nbits`, is the word itself. A value that does not fit in 32 bits is no command word. -/
def decodeTableWord (nbits w : Nat) : Option Instr :=
  if w % 2 ^ nbits < 2 ^ 32 then
    match decode (BitVec.ofNat 32 (w % 2 ^ nbits)) with
    | .ok i => some i
    | .error _ => none
  else none

end Sys2Proof
end

