-- ==== Sys2Proof/Machine/State.lean ====
section
/-! DEFINITION. The state of one core instance (R20, R39, R41) with the two agents' pending work (R7): plain data. -/

namespace Sys2Proof.Machine

/-- A buffer as sparse data: (entry number, value) pairs. An entry that is not listed has not been written since reset and
holds an unspecified value (R44); the reading operations of Machine/Operands.lean supply it from `Config`. IN, the one
byte-addressed buffer, is a list of `Host.Cell`. -/
abbrev Memory (α : Type) := List (Nat × α)

/-- The engine phase (R39): IDLE, or BUSY with the pending command. It takes the place of a program counter (R43). -/
inductive Phase where
  | idle
  | busy (op : Instr)
  deriving DecidableEq, Repr

/-- The kinds of BusError (R146 to R149). The core records none of them (R145); the model names the kind in the host's
reply, as R145 says tests do. -/
inductive BusError where
  /-- `off[1:0] ≠ 0` (R146) -/
  | misaligned
  /-- an aligned offset that the map does not name (R147) -/
  | unmapped
  /-- a write to ID or OUT (R148) -/
  | readonly
  /-- an access that waits for the command in progress is refused (R149, R152) -/
  | busyRefused
  deriving DecidableEq, Repr

/-- One line of a host program (R83). -/
inductive HostLine where
  /-- `W off, data` -/
  | write (off : Offset) (data : Word)
  /-- `R off` -/
  | read (off : Offset)
  /-- `R off == data`: a read whose value the program expects to be `data` -/
  | expect (off : Offset) (data : Word)
  /-- `P off, mask, value`: repeat `R off` until `(data & mask) == value` -/
  | poll (off : Offset) (mask value : Word)
  deriving DecidableEq, Repr

/-- What the port answered to one transaction (R50, R82): resp is OK when `err = none`, ERR otherwise. -/
inductive Reply where
  /-- a write of `data` at `off` -/
  | wrote (off : Offset) (data : Word) (err : Option BusError)
  /-- a read at `off` that returned `data`; `expected` is the value an `R off == data` line asks for -/
  | got (off : Offset) (data : Word) (err : Option BusError) (expected : Option Word)
  deriving DecidableEq, Repr

/-- Whose event comes next in the total order of R67: the host's next transaction, the engine's completion step, or the
platform's reset input (R170). -/
inductive Turn where
  | host
  | engine
  | reset
  deriving DecidableEq, Repr

/-- The reasons the machine could stop with a fault: none. The datapath is total (R154), and every error of the register
interface is an answer to the host, after which the core goes on (R145, R150). -/
inductive Fault
  deriving DecidableEq, Repr

/-- The reasons the machine could refuse an instruction. -/
inductive Refusal where
  /-- Raised by an arm of `exec` that has no meaning yet. No arm raises it: all five commands have their meaning. Safe: a
  machine that stops proves nothing false. -/
  | notModelled (mnemonic : String)
  deriving DecidableEq, Repr

/-- The state. The first nine fields are the core's own (R20 and R39); `transpose` is its hidden state (R41); the last four
are the model's: the reset count that names the free values of U1, and the two agents' pending work and answers. ID, the ROM
tables and CMD have no storage that changes (R21, R27, R37, R38); BUSY is the phase (R29); IRQ is a function of the state
(R42). -/
structure State where
  /-- IN: entry b is `IN[b]`, b < 192 (R34) -/
  inBuf : Memory Byte
  /-- WB: entry 64*c + k is `WB[c][k]` (R35) -/
  wb : Memory Word
  /-- OUT: entry 64*c + k is `OUT[c][k]` (R36) -/
  out : Memory Half
  /-- CTRL (R22) -/
  ctrl : Word
  /-- STATUS.DONE (R30) -/
  done : Bool
  /-- STATUS.ERR (R31) -/
  err : Bool
  /-- STATUS.RANGE8 (R32) -/
  range8 : Bool
  /-- STATUS.ERRCODE (R31, R153) -/
  errcode : BitVec 4
  /-- the engine phase (R39) -/
  phase : Phase
  /-- the DCT engine's transpose buffer: the row-pass results of the plane it processed last (R41), none after reset -/
  transpose : List Int
  /-- how many resets there have been: it names the free values of unwritten entries (U1) -/
  resets : Nat
  /-- the host's remaining program (R82, R83) -/
  host : List HostLine
  /-- whose turn the next events are; empty when no order is prescribed -/
  sched : List Turn
  /-- what the port has answered, the newest first -/
  replies : List Reply
  deriving DecidableEq, Repr

/-- The machine right after reset (R45, R170): registers 0, phase IDLE, no buffer entry written, no host program, no order
prescribed. -/
def State.reset : State where
  inBuf := []
  wb := []
  out := []
  ctrl := 0
  done := false
  err := false
  range8 := false
  errcode := 0
  phase := .idle
  transpose := []
  resets := 0
  host := []
  sched := []
  replies := []

end Sys2Proof.Machine
end

