-- ==== Sys2Proof/Machine/Memory.lean ====
section
/-! DEFINITION. The operations on a sparse buffer and its one canonical form. -/

namespace Sys2Proof.Machine

/-- The value listed for entry `a`; `none` when the entry is not written since reset (R44). -/
def Memory.read {α : Type} : Memory α → Nat → Option α
  | [], _ => none
  | (b, v) :: m, a => if a = b then some v else Memory.read m a

/-- One entry written, the entries kept in rising order. -/
def Memory.write {α : Type} : Memory α → Nat → α → Memory α
  | [], a, v => [(a, v)]
  | (b, w) :: m, a, v =>
    if a < b then (a, v) :: (b, w) :: m
    else if a = b then (a, v) :: m
    else (b, w) :: Memory.write m a v

/-- Entries `0..n-1` all written with the n values of `vs`, in order; the others kept (R174: a command overwrites its output
planes in full). -/
def Memory.overwrite {α : Type} (vs : List α) (m : Memory α) : Memory α :=
  vs.zipIdx.map (fun p => (p.2, p.1)) ++ m.filter (fun c => vs.length ≤ c.1)

/-- The canonical form of a buffer of `size` entries: entry numbers strictly rising and below `size`. An unlisted entry reads
as no value, so no listed entry equals what an unlisted one reads as. -/
abbrev Memory.wf {α : Type} (size : Nat) (m : Memory α) : Prop :=
  (m.map Prod.fst).Pairwise (· < ·) ∧ ∀ c ∈ m, c.1 < size

end Sys2Proof.Machine
end

