-- ==== Sys2Proof/Machine/Rom.lean ====
section
/-! DEFINITION. The constant tables: ID (R21), LUMA, CHROMA and UNIT (R37), and the cosine ROM K (R38). -/

namespace Sys2Proof.Machine

/-- The value ID always reads (R21): "YCC1". -/
def idWord : Word := 0x59434331#32

/-- LUMA, row-major (R37). -/
def lumaTable : List Nat :=
  [16, 11, 10, 16, 24, 40, 51, 61] ++
  [12, 12, 14, 19, 26, 58, 60, 55] ++
  [14, 13, 16, 24, 40, 57, 69, 56] ++
  [14, 17, 22, 29, 51, 87, 80, 62] ++
  [18, 22, 37, 56, 68, 109, 103, 77] ++
  [24, 35, 55, 64, 81, 104, 113, 92] ++
  [49, 64, 78, 87, 103, 121, 120, 101] ++
  [72, 92, 95, 98, 112, 100, 103, 99]

/-- CHROMA, row-major (R37). -/
def chromaTable : List Nat :=
  [17, 18, 24, 47, 99, 99, 99, 99] ++
  [18, 21, 26, 66, 99, 99, 99, 99] ++
  [24, 26, 56, 99, 99, 99, 99, 99] ++
  [47, 66, 99, 99, 99, 99, 99, 99] ++
  [99, 99, 99, 99, 99, 99, 99, 99] ++
  [99, 99, 99, 99, 99, 99, 99, 99] ++
  [99, 99, 99, 99, 99, 99, 99, 99] ++
  [99, 99, 99, 99, 99, 99, 99, 99]

/-- `LUMA[k]`, k < 64. -/
def luma (k : Nat) : Nat := lumaTable.getD k 1

/-- `CHROMA[k]`, k < 64. -/
def chroma (k : Nat) : Nat := chromaTable.getD k 1

/-- `UNIT[k]`: 1 at every k (R37). -/
def unitQ (_k : Nat) : Nat := 1

/-- The cosine ROM, row u after row u (R38: "The full table"). -/
def cosineTable : List Int :=
  [16384, 16384, 16384, 16384, 16384, 16384, 16384, 16384] ++
  [22725, 19266, 12873, 4520, -4520, -12873, -19266, -22725] ++
  [21407, 8867, -8867, -21407, -21407, -8867, 8867, 21407] ++
  [19266, -4520, -22725, -12873, 12873, 22725, 4520, -19266] ++
  [16384, -16384, -16384, 16384, 16384, -16384, -16384, 16384] ++
  [12873, -22725, 4520, 19266, -19266, -4520, 22725, -12873] ++
  [8867, -21407, 21407, -8867, -8867, 21407, -21407, 8867] ++
  [4520, -12873, 19266, -22725, 22725, -19266, 12873, -4520]

/-- `K[u][i]`, u, i < 8 (R38): a signed Q2.14 coefficient. -/
def cosK (u i : Nat) : Int := cosineTable.getD (8 * u + i) 0

end Sys2Proof.Machine
end

