-- ==== Sys2Proof/Machine/Operands.lean ====
section
/-! DEFINITION. The operand forms of R80: CTRL's fields, the plane count, the buffer entries a command reads, the table of a
plane. -/

namespace Sys2Proof.Machine

/-- CTRL.CHAN1, bit 0 (R22, R23). -/
def chan1 (s : State) : Bool := s.ctrl.getLsbD 0

/-- CTRL.QTAB, bit 1 (R22, R24). -/
def qtab (s : State) : Bool := s.ctrl.getLsbD 1

/-- CTRL.IE_DONE, bit 8 (R22, R25). -/
def ieDone (s : State) : Bool := s.ctrl.getLsbD 8

/-- CTRL.IE_ERR, bit 9 (R22, R25). -/
def ieErr (s : State) : Bool := s.ctrl.getLsbD 9

/-- The CTRL word that selects a configuration: `ctrl(chan1, qtab, ie_done, ie_err)` of R85. -/
def ctrlWord (chan1 qtab ieDone ieErr : Bool) : Word :=
  (BitVec.ofBool chan1).zeroExtend 32 ||| (BitVec.ofBool qtab).zeroExtend 32 <<< 1 |||
    (BitVec.ofBool ieDone).zeroExtend 32 <<< 8 ||| (BitVec.ofBool ieErr).zeroExtend 32 <<< 9

/-- NP, the number of planes a command processes (R15). -/
def np (s : State) : Nat := if chan1 s then 1 else 3

/-- `IN[b]`; an entry not written since reset holds a free value (R44, U1; log entry 1). -/
def inByte (s : State) (b : Nat) : Byte :=
  (Memory.read s.inBuf b).getD (Config.unwrittenIn s.resets b)

/-- WB entry n = 64*c + k as a word; a free value while unwritten (R44, U1; log entry 1). -/
def wbEntry (s : State) (n : Nat) : Word :=
  (Memory.read s.wb n).getD (Config.unwrittenWb s.resets n)

/-- OUT entry n = 64*c + k as stored; a free value while unwritten (R44, U1; log entry 1). -/
def outEntry (s : State) (n : Nat) : Half :=
  (Memory.read s.out n).getD (Config.unwrittenOut s.resets n)

/-- `WB[c][k]` read as an integer (R13). -/
def wbInt (s : State) (c k : Nat) : Int := (wbEntry s (64 * c + k)).toInt

/-- `OUT[c][k]` read as an integer (R13). -/
def outInt (s : State) (c k : Nat) : Int := (outEntry s (64 * c + k)).toInt

/-- `for k in 0..63` (R16): the 64 values of one plane, in flat row-major order (R14). -/
def overPositions {α : Type} (f : Nat → α) : List α := (List.range 64).map f

/-- `for c in 0..NP-1` (R15, R16): the planes a command produces, one after the other. They are the entries 0..64*NP-1 of a
buffer. -/
def overPlanes {α : Type} (s : State) (plane : Nat → List α) : List α := (List.range (np s)).flatMap plane

/-- Plane c of WB as 64 integers: what LSH, DCT and QNT read. -/
def wbPlane (s : State) (c : Nat) : List Int := overPositions (wbInt s c)

/-- Channel c of block position k in IN, three-channel layout: `IN[3k + c]` (R34, R73). -/
def rgbSample (s : State) (c k : Nat) : Int := (inByte s (3 * k + c)).toNat

/-- The sample of position k in IN, single-channel layout: `IN[k]` (R34, R73). -/
def greySample (s : State) (k : Nat) : Int := (inByte s k).toNat

/-- `table(c)[k]` of R121: UNIT for every plane when QTAB = 1; LUMA for plane 0 and CHROMA for the others when QTAB = 0. -/
def quantDivisor (s : State) (c k : Nat) : Nat :=
  if qtab s then unitQ k else if c = 0 then luma k else chroma k

end Sys2Proof.Machine
end

