-- ==== Sys2Proof/Machine/Flags.lean ====
section
/-! DEFINITION. Every flag computation: STATUS as it is read and written (R28, R33), the RANGE8 test (R32), the IRQ line
(R42). -/

namespace Sys2Proof.Machine

/-- STATUS.BUSY: 1 exactly while the phase is BUSY (R29). -/
def busy (s : State) : Bool :=
  match s.phase with
  | .idle => false
  | .busy _ => true

/-- What a read of STATUS returns: `{20'b0, ERRCODE, 4'b0, RANGE8, ERR, DONE, BUSY}` (R28). -/
def statusWord (s : State) : Word :=
  0#20 ++ s.errcode ++ 0#4 ++ BitVec.ofBool s.range8 ++ BitVec.ofBool s.err ++ BitVec.ofBool s.done ++
    BitVec.ofBool (busy s)

/-- A host write of d to STATUS: write-one-to-clear on bits 1, 2 and 3 (R33, R160). Every other bit is ignored. -/
def clearFlags (d : Word) (s : State) : State :=
  { s with
    done := s.done && !d.getLsbD 1
    err := s.err && !d.getLsbD 2
    errcode := if d.getLsbD 2 then 0 else s.errcode
    range8 := s.range8 && !d.getLsbD 3 }

/-- Whether a quantized value lies outside [-128, 127] (R32, R124). -/
def outside8 (q : Int) : Bool := q < -128 || 127 < q

/-- The interrupt line: `(DONE and IE_DONE) or (ERR and IE_ERR)` (R42). -/
def irq (s : State) : Bool := s.done && ieDone s || s.err && ieErr s

end Sys2Proof.Machine
end

