-- ==== Sys2Proof/Machine/Ops.lean ====
section
/-! DEFINITION. The shared operations: accepting and completing a command (R39, R40), taking a command error (R150, R159),
reset (R170), and the two transactions of the register port (R50 to R64, R156). -/

namespace Sys2Proof.Machine

/-- **Accept** (R39): a legal command written while idle. -/
def accept (op : Instr) (s : State) : State :=
  { s with phase := .busy op, done := false, range8 := false }

/-- **Completion** (R40), after perform(op): RANGE8 takes the command's result, DONE is set and the phase is IDLE. -/
def complete (r : Bool) (s : State) : State :=
  { s with range8 := r, phase := .idle, done := true }

/-- `raise CmdError(code)` (R31, R150): the core's event entry. It saves nothing, switches no mode and jumps nowhere (R159);
the return from it is the host's write to STATUS, `clearFlags` (R160). -/
def raiseCmdError (code : BitVec 4) (s : State) : State :=
  { s with err := true, errcode := code }

/-- ERRCODE of ILLEGAL_CMD (R153). -/
def illegalCmd : BitVec 4 := 1

/-- ERRCODE of CMD_BUSY (R153). -/
def cmdBusy : BitVec 4 := 2

/-- The reset input asserted and released, as one step (R170, U5). Every entry of IN, WB and OUT is unspecified afterwards
(R171): the buffers list nothing, and the new reset count gives new free values. The host's program, the schedule and the
answers already given belong to the agents outside, and stay. -/
def applyReset (s : State) : State :=
  { State.reset with
    resets := s.resets + 1, host := s.host, sched := s.sched, replies := s.replies }

/-- What an aligned offset names (R52). -/
inductive Target where
  | id
  | ctrl
  | cmd
  | status
  /-- word w of IN, w in 0..47 (R57) -/
  | inWord (w : Nat)
  /-- entry n = 64*c + k of WB (R58) -/
  | wb (n : Nat)
  /-- entry n = 64*c + k of OUT (R59) -/
  | out (n : Nat)
  deriving DecidableEq, Repr

/-- The address map of R52; `none` is unmapped. The plane stride 0x100 is 64 words, so (off - base) / 4 is 64*c + k. -/
def addressMap (off : Offset) : Option Target :=
  let a := off.toNat
  if a = 0x000 then some .id
  else if a = 0x004 then some .ctrl
  else if a = 0x008 then some .cmd
  else if a = 0x00C then some .status
  else if 0x100 ≤ a ∧ a < 0x1C0 then some (.inWord ((a - 0x100) / 4))
  else if 0x400 ≤ a ∧ a < 0x700 then some (.wb ((a - 0x400) / 4))
  else if 0x800 ≤ a ∧ a < 0xB00 then some (.out ((a - 0x800) / 4))
  else none

/-- The offset that a platform address reaches: `off = A - BASE` inside the window (R51). An address outside it never reaches
the core. -/
def windowOffset (addr : Nat) : Option Offset :=
  if Config.base ≤ addr ∧ addr < Config.base + 0x1000 then some (BitVec.ofNat 12 (addr - Config.base)) else none

/-- Whether a write of this target raises READONLY (R148). -/
def Target.readonly : Target → Bool
  | .id | .out _ => true
  | .ctrl | .cmd | .status | .inWord _ | .wb _ => false

/-- Whether a transaction on this target is refused while BUSY = 1 (R64, R149, R152). -/
def Target.refusedWhileBusy (isWrite : Bool) : Target → Bool
  | .id | .status => false
  | .cmd => isWrite
  | .ctrl | .inWord _ | .wb _ | .out _ => true

/-- The checks of one transaction, in the order of R156: the target it reaches, or the first error that applies. -/
def checkAccess (isWrite : Bool) (off : Offset) (s : State) : Except BusError Target :=
  if off.extractLsb' 0 2 ≠ 0 then .error .misaligned
  else
    match addressMap off with
    | none => .error .unmapped
    | some t =>
      if isWrite && t.readonly then .error .readonly
      else if busy s && t.refusedWhileBusy isWrite then .error .busyRefused
      else .ok t

/-- The value a performed read returns (R57 to R63). -/
def readTarget (t : Target) (s : State) : Word :=
  match t with
  | .id => idWord
  | .ctrl => s.ctrl
  | .cmd => 0
  | .status => statusWord s
  | .inWord w => packBytes (inByte s (4 * w)) (inByte s (4 * w + 1)) (inByte s (4 * w + 2)) (inByte s (4 * w + 3))
  | .wb n => wbEntry s n
  | .out n => (outEntry s n).signExtend 32

/-- A write to CTRL: the four implemented bits are stored, the reserved bits of d are ignored (R22, R61). -/
def writeCtrl (d : Word) (s : State) : State := { s with ctrl := d &&& 0x00000303#32 }

/-- A write to CMD while the phase is IDLE: accept, or ILLEGAL_CMD (R62, R78, R151). -/
def writeCmd (d : Word) (s : State) : State :=
  match decode d with
  | .ok op => accept op s
  | .error _ => raiseCmdError illegalCmd s

/-- A write of word w of IN: all four bytes (R53, R57). -/
def writeIn (w : Nat) (d : Word) (s : State) : State :=
  { s with
    inBuf :=
      Memory.write (Memory.write (Memory.write (Memory.write s.inBuf (4 * w) (byteOf d 0)) (4 * w + 1) (byteOf d 1))
        (4 * w + 2) (byteOf d 2)) (4 * w + 3) (byteOf d 3) }

/-- A write of WB entry n (R58). -/
def writeWb (n : Nat) (d : Word) (s : State) : State := { s with wb := Memory.write s.wb n d }

/-- A performed write (R57 to R63). ID and OUT are read-only, so `checkAccess` lets no write reach them. -/
def writeTarget (t : Target) (d : Word) (s : State) : State :=
  match t with
  | .ctrl => writeCtrl d s
  | .cmd => writeCmd d s
  | .status => clearFlags d s
  | .inWord w => writeIn w d s
  | .wb n => writeWb n d s
  | .id | .out _ => s

/-- `MemRead(off, 4)` of R13: the data and resp (`none` is OK). A read that raises a bus error returns 0 (R145). No read
changes the state (R65). -/
def memRead (off : Offset) (s : State) : Word × Option BusError :=
  match checkAccess false off s with
  | .error e => (0, some e)
  | .ok t => (readTarget t s, none)

/-- A refused write changes nothing, except that a CMD write refused as CMD_BUSY also raises CmdError(CMD_BUSY) (R145,
R152). -/
def refuseWrite (e : BusError) (off : Offset) (s : State) : State :=
  if e = .busyRefused ∧ addressMap off = some .cmd then raiseCmdError cmdBusy s else s

/-- `MemWrite(off, 4, d)` of R13: the state it leaves and resp (`none` is OK). -/
def memWrite (off : Offset) (d : Word) (s : State) : State × Option BusError :=
  match checkAccess true off s with
  | .error e => (refuseWrite e off s, some e)
  | .ok t => (writeTarget t d s, none)

end Sys2Proof.Machine
end

