-- ==== Sys2Proof/Machine/ColorShift.lean ====
section
/-! DEFINITION. The color-space converter and the level shifter: CSC (R90, R92) and LSH (R97). -/

namespace Sys2Proof.Machine

/-- Y * 10000 of one pixel (R90). -/
def lumaOf (r g b : Int) : Int := 2990 * r + 5870 * g + 1140 * b

/-- Cb * 10000 of one pixel (R90). -/
def cbOf (r g b : Int) : Int := 1280000 - 1687 * r - 3313 * g + 5000 * b

/-- Cr * 10000 of one pixel (R90). -/
def crOf (r g b : Int) : Int := 1280000 + 5000 * r - 4187 * g - 813 * b

/-- What CSC stores in plane c at position k: R90 in three-channel mode, R92 in single-channel mode. -/
def cscValue (s : State) (c k : Nat) : Int :=
  if chan1 s then 10000 * greySample s k
  else
    let r := rgbSample s 0 k
    let g := rgbSample s 1 k
    let b := rgbSample s 2 k
    if c = 0 then lumaOf r g b else if c = 1 then cbOf r g b else crOf r g b

/-- perform(CSC): WB planes 0..NP-1 written (R90, R92). -/
def performCsc (s : State) : State :=
  { s with wb := Memory.overwrite (overPlanes s fun c => overPositions fun k => bits32 (cscValue s c k)) s.wb }

/-- CSC, the color-space converter: its completion step (R90, R92, R40). -/
def execCsc (s : State) : Host.Outcome State Fault Refusal := .next (complete false (performCsc s))

/-- perform(LSH): `WB[c][k] <- wrap32(WB[c][k] - 1280000)` on planes 0..NP-1, in place (R97). -/
def performLsh (s : State) : State :=
  { s with wb := Memory.overwrite (overPlanes s fun c => overPositions fun k => bits32 (wbInt s c k - 1280000)) s.wb }

/-- LSH, the level shifter: its completion step (R97, R40). -/
def execLsh (s : State) : Host.Outcome State Fault Refusal := .next (complete false (performLsh s))

end Sys2Proof.Machine
end

