-- ==== Sys2Proof/Machine/DctEngine.lean ====
section
/-! DEFINITION. The DCT engine: DCT (R105), row pass (R108), then column pass (R109). -/

namespace Sys2Proof.Machine

/-- The row pass on a plane S of 64 values: entry 8i + v of the result is
`Rw[i][v] = rnd_shr(sum_j S[i][j] * K[v][j], 14)` (R108). -/
def rowPass (S : List Int) : List Int :=
  overPositions fun n => rndShr (sum8 fun j => S.getD (8 * (n / 8) + j) 0 * cosK (n % 8) j) 14

/-- The column pass on the row-pass results: entry 8u + v of the result is
`T[u][v] = rnd_shr(sum_i K[u][i] * Rw[i][v], 14)` (R109). -/
def colPass (Rw : List Int) : List Int :=
  overPositions fun n => rndShr (sum8 fun i => cosK (n / 8) i * Rw.getD (8 * i + n % 8) 0) 14

/-- T of a plane S, before its store: row pass first, then column pass (R105, R108). -/
def dctPlane (S : List Int) : List Int := colPass (rowPass S)

/-- perform(DCT): T stored through wrap32 in WB planes 0..NP-1 (R105, R111). Every output is computed from the WB of before
the command (R117). The transpose buffer is left with the row-pass results of the last plane (R41). -/
def performDct (s : State) : State :=
  { s with
    wb := Memory.overwrite (overPlanes s fun c => (dctPlane (wbPlane s c)).map bits32) s.wb
    transpose := rowPass (wbPlane s (np s - 1)) }

/-- DCT, the 2D forward DCT: its completion step (R105, R40). -/
def execDct (s : State) : Host.Outcome State Fault Refusal := .next (complete false (performDct s))

end Sys2Proof.Machine
end

