-- ==== Sys2Proof/Machine/Quantizer.lean ====
section
/-! DEFINITION. The quantizer: QNT (R120 to R124). -/

namespace Sys2Proof.Machine

/-- The rounding divider: `div_rha(t, 80000*Q)` (R122). -/
def quantize (t : Int) (q : Nat) : Int := divRha t (80000 * q)

/-- The quantized value of plane c at position k (R120, R121). -/
def qntValue (s : State) (c k : Nat) : Int := quantize (wbInt s c k) (quantDivisor s c k)

/-- The quantized values of the processed planes (R120). -/
def qntValues (s : State) : List Int := overPlanes s fun c => overPositions fun k => qntValue s c k

/-- The RANGE8 result: some quantized value of a processed plane lies outside [-128, 127] (R32, R120, R124). -/
def qntRange8 (s : State) : Bool := (qntValues s).any outside8

/-- perform(QNT): OUT planes 0..NP-1 written with 16-bit values; WB is not changed (R120, R123). -/
def performQnt (s : State) : State :=
  { s with out := Memory.overwrite ((qntValues s).map (BitVec.ofInt 16)) s.out }

/-- QNT, the quantizer: its completion step (R120, R40). -/
def execQnt (s : State) : Host.Outcome State Fault Refusal := .next (complete (qntRange8 s) (performQnt s))

end Sys2Proof.Machine
end

