-- ==== Sys2Proof/Machine/Pipeline.lean ====
section
/-! DEFINITION. RUN, the whole pipeline as one command (R135). -/

namespace Sys2Proof.Machine

/-- The first three stages of RUN, after which WB holds T (R135, R136). -/
def performStages (s : State) : State := performDct (performLsh (performCsc s))

/-- RUN: CSC, LSH, DCT and QNT in pipeline order, one completion (R135, R40). -/
def execRun (s : State) : Host.Outcome State Fault Refusal :=
  .next (complete (qntRange8 (performStages s)) (performQnt (performStages s)))

end Sys2Proof.Machine
end

