-- ==== Sys2Proof/Machine/Dispatch.lean ====
section
/-! DEFINITION. One arm per command: the completion step of that command (R40). -/

namespace Sys2Proof.Machine

def exec (i : Instr) (s : State) : Host.Outcome State Fault Refusal :=
  match i with
  | .csc => Sys2Proof.Machine.execCsc s
  | .lsh => Sys2Proof.Machine.execLsh s
  | .dct => Sys2Proof.Machine.execDct s
  | .qnt => Sys2Proof.Machine.execQnt s
  | .run => Sys2Proof.Machine.execRun s

end Sys2Proof.Machine
end

