-- ==== Sys2Proof/Machine/HostProgram.lean ====
section
/-! DEFINITION. The host agent: one line of its program as one transaction (R83), and the pseudo-instructions of R84. -/

namespace Sys2Proof.Machine

/-- The port's answer to a line is noted; `rest` is the program after it. -/
def noteReply (r : Reply) (rest : List HostLine) (s : State) : State :=
  { s with replies := r :: s.replies, host := rest }

/-- One transaction of the host: `line` is the head of its program, `rest` the lines after it (R83). A poll whose read does
not satisfy it stays the next line. After an ERR response the host goes on with its next line (U7). -/
def hostStep (line : HostLine) (rest : List HostLine) (s : State) : State :=
  match line with
  | .write off d =>
    let (s', e) := memWrite off d s
    noteReply (.wrote off d e) rest s'
  | .read off =>
    let (x, e) := memRead off s
    noteReply (.got off x e none) rest s
  | .expect off d =>
    let (x, e) := memRead off s
    noteReply (.got off x e (some d)) rest s
  | .poll off mask value =>
    let (x, e) := memRead off s
    noteReply (.got off x e none) (if x &&& mask = value then rest else line :: rest) s

/-- The byte offset of CMD (R27). -/
def cmdOffset : Offset := 0x008#12

/-- The byte offset of STATUS (R28). -/
def statusOffset : Offset := 0x00C#12

/-- The byte offset of CTRL (R22). -/
def ctrlOffset : Offset := 0x004#12

/-- The byte offset of IN word w (R57). -/
def inOffset (w : Nat) : Offset := BitVec.ofNat 12 (0x100 + 4 * w)

/-- The byte offset of `WB[c][k]` (R58). -/
def wbOffset (c k : Nat) : Offset := BitVec.ofNat 12 (0x400 + 0x100 * c + 4 * k)

/-- The byte offset of `OUT[c][k]` (R59). -/
def outOffset (c k : Nat) : Offset := BitVec.ofNat 12 (0x800 + 0x100 * c + 4 * k)

/-- `CMD <op>` (R84). -/
def lineCmd (op : Instr) : HostLine := .write cmdOffset (encode op)

/-- `WAIT`: poll STATUS until BUSY = 0 (R84). -/
def lineWait : HostLine := .poll statusOffset 0x1 0x0

/-- `CLRST`: clear DONE, ERR, ERRCODE and RANGE8 (R84). -/
def lineClrst : HostLine := .write statusOffset 0xE

/-- `CFG a, b, c, d` (R84, R85). -/
def lineCfg (a b c d : Bool) : HostLine := .write ctrlOffset (ctrlWord a b c d)

/-- `WIN w, data` (R84). -/
def lineWin (w : Nat) (data : Word) : HostLine := .write (inOffset w) data

/-- `WWB c, k, data`; a decimal data stands for its 32-bit pattern (R83, R84). -/
def lineWwb (c k : Nat) (data : Int) : HostLine := .write (wbOffset c k) (bits32 data)

/-- `RWB c, k` (R84). -/
def lineRwb (c k : Nat) : HostLine := .read (wbOffset c k)

/-- `ROUT c, k` (R84). -/
def lineRout (c k : Nat) : HostLine := .read (outOffset c k)

/-- Byte n of the fill pattern of `FILLIN b0, b1, b2`: the value of n mod 3, taken from (b0, b1, b2) (R84). -/
def fillByte (b0 b1 b2 : Byte) (n : Nat) : Byte :=
  if n % 3 = 0 then b0 else if n % 3 = 1 then b1 else b2

/-- `FILLIN b0, b1, b2`: 48 lines, every pixel gets (R, G, B) = (b0, b1, b2) (R84). -/
def linesFillin (b0 b1 b2 : Byte) : List HostLine :=
  (List.range 48).map fun w =>
    lineWin w (packBytes (fillByte b0 b1 b2 (4 * w)) (fillByte b0 b1 b2 (4 * w + 1)) (fillByte b0 b1 b2 (4 * w + 2))
      (fillByte b0 b1 b2 (4 * w + 3)))

/-- `FILLWB c, data`: 64 lines (R84). -/
def linesFillwb (c : Nat) (data : Int) : List HostLine := (List.range 64).map fun k => lineWwb c k data

end Sys2Proof.Machine
end

