-- ==== Sys2Proof/Machine/Schedule.lean ====
section
/-! DEFINITION. Whose event comes next (R67, R157, R181), and where the next command word waits. -/

namespace Sys2Proof.Machine

/-- Whose event comes next. The schedule says; where it says nothing, the engine completes the command in progress, and the
host moves otherwise. Log entry 3. -/
def nextTurn (s : State) : Turn :=
  match s.sched with
  | t :: _ => t
  | [] => if busy s then .engine else .host

/-- The schedule after one event. -/
def dropTurn (s : State) : State := { s with sched := s.sched.tail }

/-- The host's event: its next line, or nothing when its program has ended (R83). -/
def hostTurn (s : State) : State :=
  match s.host with
  | [] => s
  | line :: rest => hostStep line rest s

/-- The word waits to be run by the very next event. A legal word is accepted, as its write to CMD at an idle engine does
(R39), and the engine moves next. An illegal word is the host's next CMD write at an idle engine, which raises ILLEGAL_CMD
(R151). A turn is prescribed only where a schedule stands already. -/
def placeWord (d : Word) (s : State) : State :=
  match decode d with
  | .ok op => { accept op s with sched := if s.sched = [] then [] else .engine :: s.sched }
  | .error _ =>
    { s with
      phase := .idle
      host := .write cmdOffset d :: s.host
      sched := if s.sched = [] then [] else .host :: s.sched }

end Sys2Proof.Machine
end

