-- ==== Sys2Proof/Machine/Step.lean ====
section
/-! DEFINITION. One step is one event of the total order of R67: a host transaction, the engine's completion step, or a
reset. -/

namespace Sys2Proof.Machine

/-- One event. The engine's completion step is enabled only while the phase is BUSY (R40); an engine turn at an idle core
passes. -/
def step (s : State) : Host.Outcome State Fault Refusal :=
  match nextTurn s with
  | .host => .next (hostTurn (dropTurn s))
  | .reset => .next (applyReset (dropTurn s))
  | .engine =>
    match s.phase with
    | .busy op => exec op (dropTurn s)
    | .idle => .next (dropTurn s)

/-- The command word `w` of an opcode-table row placed so that the very next step runs it (log entry 4): see `placeWord`. -/
def State.withFetchWord (s : State) (nbits w : Nat) : State := placeWord (BitVec.ofNat 32 (w % 2 ^ nbits)) s

end Sys2Proof.Machine
end

