-- ==== Sys2Proof/Machine/Reference.lean ====
section
/-! DEFINITION. The document's real-valued definitions, which the core approximates and statements compare it with: R12's
rounding, R106's transform. The core does not compute them, and no step uses this file. -/

namespace Sys2Proof.Reference

/-- `round_ha(x) = sgn(x) * floor(abs(x) + 1/2)`: to the nearest integer, ties away from zero (R12). -/
noncomputable def roundHa (x : ℝ) : ℤ := (if x < 0 then -1 else 1) * ⌊|x| + 1 / 2⌋

/-- `C(u)` of R106. -/
noncomputable def scale (u : ℕ) : ℝ := if u = 0 then 1 / √2 else 1

/-- `cos((2i+1) * u * π / 16)` of R106. -/
noncomputable def cosine (u i : ℕ) : ℝ := Real.cos ((2 * (i : ℝ) + 1) * u * Real.pi / 16)

/-- `A(u,i) = sqrt(2) * C(u) * cos((2i+1) * u * π / 16)` (R38, R107). -/
noncomputable def basis (u i : ℕ) : ℝ := √2 * scale u * cosine u i

/-- `D(u,v)` of R106 for a plane whose entry 8i + j stands for the sample `S (8i + j) / 10000`. -/
noncomputable def coeff (S : ℕ → ℤ) (u v : ℕ) : ℝ :=
  0.25 * scale u * scale v *
    ∑ i ∈ Finset.range 8, ∑ j ∈ Finset.range 8, ((S (8 * i + j) : ℝ) / 10000) * cosine u i * cosine v j

end Sys2Proof.Reference
end

