-- ==== Sys2Proof/Safety.lean ====
section
/-! DEFINITION. What claims about the machine speak of: the invariant every step keeps, what a host must have written before a
command (R173), when a host's run is safe, and what "unchanged" means. -/

namespace Sys2Proof.Machine

/-! ### The invariant -/

/-- IN has 192 entries, WB and OUT 3 × 64 (R20), each in the one canonical form. -/
abbrev State.BuffersCanonical (s : State) : Prop :=
  Memory.wf 192 s.inBuf ∧ Memory.wf 192 s.wb ∧ Memory.wf 192 s.out

/-- CTRL's reserved bits, all but 0, 1, 8 and 9, are 0 (R22). -/
abbrev State.CtrlReservedZero (s : State) : Prop := s.ctrl &&& ~~~0x00000303#32 = 0

/-- ERRCODE is 0 when ERR is 0 (R28), and one of the two codes of R153 when ERR is 1: 3 to 15 are never produced. -/
abbrev State.ErrcodeLegal (s : State) : Prop :=
  if s.err then s.errcode = illegalCmd ∨ s.errcode = cmdBusy else s.errcode = 0

/-- While a command is in progress DONE and RANGE8 are 0: the accept cleared them (R39), and only its completion sets them
(R30, R32). -/
abbrev State.FlagsClearWhileBusy (s : State) : Prop := busy s = true → s.done = false ∧ s.range8 = false

/-- The transpose buffer holds the row results of one plane, or none yet (R41). -/
abbrev State.TransposeShape (s : State) : Prop := s.transpose = [] ∨ s.transpose.length = 64

/-- What every step keeps. -/
abbrev State.Inv (s : State) : Prop :=
  s.BuffersCanonical ∧ s.CtrlReservedZero ∧ s.ErrcodeLegal ∧ s.FlagsClearWhileBusy ∧ s.TransposeShape

/-! ### What a host must have written (R173) -/

/-- How many IN bytes CSC and RUN read: words 0..47, or words 0..15 in single-channel mode (R173). -/
def inBytesRead (s : State) : Nat := if chan1 s then 64 else 192

/-- Every IN byte the mode reads has been written since reset. -/
abbrev State.InWritten (s : State) : Prop := ∀ b < inBytesRead s, (Memory.read s.inBuf b).isSome

/-- Every WB entry of planes 0..NP-1 has been written since reset. -/
abbrev State.WbWritten (s : State) : Prop := ∀ n < 64 * np s, (Memory.read s.wb n).isSome

/-- What a command reads has been written, so that its results are specified (R173). -/
abbrev State.Ready (s : State) : Instr → Prop
  | .csc | .run => s.InWritten
  | .lsh | .dct | .qnt => s.WbWritten

/-! ### A host's run -/

/-- resp = ERR (R145). -/
def Reply.isErr : Reply → Bool
  | .wrote _ _ e => e.isSome
  | .got _ _ e _ => e.isSome

/-- An `R off == data` line got its data (R83); every other reply asserts nothing. -/
def Reply.asExpected : Reply → Bool
  | .wrote _ _ _ => true
  | .got _ d _ expected =>
    match expected with
    | none => true
    | some x => d == x

/-- Every transaction so far was answered OK and every assertion of the program held. -/
abbrev State.SafeSoFar (s : State) : Prop := ∀ r ∈ s.replies, r.isErr = false ∧ r.asExpected = true

/-! ### What stays unchanged -/

/-- The two agents' pending work, the answers and the reset count. -/
def KeepsAgents (s t : State) : Prop :=
  t.host = s.host ∧ t.sched = s.sched ∧ t.replies = s.replies ∧ t.resets = s.resets

/-- ERR and ERRCODE. -/
def KeepsError (s t : State) : Prop := t.err = s.err ∧ t.errcode = s.errcode

/-- Every byte of IN reads as before. -/
def KeepsIn (s t : State) : Prop := ∀ b, inByte t b = inByte s b

/-- Every WB entry from number n on reads as before. -/
def KeepsWbFrom (n : Nat) (s t : State) : Prop := ∀ m, n ≤ m → wbEntry t m = wbEntry s m

/-- Every OUT entry from number n on reads as before. -/
def KeepsOutFrom (n : Nat) (s t : State) : Prop := ∀ m, n ≤ m → outEntry t m = outEntry s m

/-- All three buffers read as before. -/
def KeepsBuffers (s t : State) : Prop := KeepsIn s t ∧ KeepsWbFrom 0 s t ∧ KeepsOutFrom 0 s t

/-- A command has completed with RANGE8 result r (R40, R46): DONE is 1, RANGE8 is r, the phase is IDLE, and CTRL, ERR,
ERRCODE and the agents are as before. -/
def CompletedWith (r : Bool) (s t : State) : Prop :=
  t.done = true ∧ t.range8 = r ∧ t.phase = .idle ∧ t.ctrl = s.ctrl ∧ KeepsError s t ∧ KeepsAgents s t

end Sys2Proof.Machine
end

