-- ==== Sys2Proof/Certificates/Slice0/Obligations.lean ====
section
/-! DEFINITION. The statements about the core, from the numbered rules of the spec. -/

open Sys2Proof Sys2Proof.Machine

/-! ## Command words -/

/-- R77: each legal command word is fully fixed, and every other word is illegal. -/
def Obligations.OpcodeMapIsExact : Prop :=
  ∀ d : Word,
    (decode d = .ok .csc ↔ d = 0x00000001#32) ∧ (decode d = .ok .lsh ↔ d = 0x00000002#32) ∧
    (decode d = .ok .dct ↔ d = 0x00000003#32) ∧ (decode d = .ok .qnt ↔ d = 0x00000004#32) ∧
    (decode d = .ok .run ↔ d = 0x00000005#32) ∧
    ((∃ why, decode d = .error why) ↔ d = 0x00000000#32 ∨ 6 ≤ d.toNat)

/-- Decode and encode agree on every command and on every word (R76, R77); the same through the opcode table's numbering of
bits. -/
def Obligations.DecodeAndEncodeAgree : Prop :=
  (∀ i, decode (encode i) = .ok i) ∧
  (∀ d i, decode d = .ok i → encode i = d) ∧
  (∀ d, WellFormed.commandWord d ↔ ∃ i, decode d = .ok i) ∧
  (∀ nbits w i, 32 ≤ nbits → w < 2 ^ nbits → (decodeTableWord nbits w = some i ↔ w = (encode i).toNat))

/-- R78, with the effects R39, R151 and R152 give a write to CMD; and R79: which words are illegal, and that they start
nothing. -/
def Obligations.CommandWriteFollowsDecode : Prop :=
  (∀ d : Word, d.toNat / 16 ≠ 0 → ∃ why, decode d = .error why) ∧
  (∀ d : Word, d.toNat / 16 = 0 →
    (d.toNat % 16 = 1 → decode d = .ok .csc) ∧ (d.toNat % 16 = 2 → decode d = .ok .lsh) ∧
    (d.toNat % 16 = 3 → decode d = .ok .dct) ∧ (d.toNat % 16 = 4 → decode d = .ok .qnt) ∧
    (d.toNat % 16 = 5 → decode d = .ok .run) ∧
    (d.toNat % 16 = 0 ∨ 6 ≤ d.toNat % 16 → ∃ why, decode d = .error why)) ∧
  ∀ (s : State) (d : Word),
    (busy s = true → memWrite 0x008#12 d s = ({ s with err := true, errcode := 2 }, some .busyRefused)) ∧
    (busy s = false → ∀ why, decode d = .error why →
      memWrite 0x008#12 d s = ({ s with err := true, errcode := 1 }, none)) ∧
    (busy s = false → ∀ op, decode d = .ok op →
      memWrite 0x008#12 d s = ({ s with phase := .busy op, done := false, range8 := false }, none)) ∧
    (busy s = false → (d = 0 ∨ (6 ≤ d.toNat ∧ d.toNat ≤ 15) ∨ d.toNat / 16 ≠ 0) →
      memWrite 0x008#12 d s = ({ s with err := true, errcode := 1 }, none))

/-- Words written out from the encoding of R76 decode to what they stand for. -/
def Obligations.WrittenOutWordsDecode : Prop :=
  decode 0b00000000000000000000000000000001#32 = .ok .csc ∧
  decode 0b00000000000000000000000000000011#32 = .ok .dct ∧
  decode 0b00000000000000000000000000000101#32 = .ok .run ∧
  decode 0b00000000000000000000000000000110#32 = .error .reservedOpcode ∧
  decode 0b10000000000000000000000000000001#32 = .error .reservedBits

/-! ## Steps, and the order of events -/

/-- The engine's turn runs the pending command: its completion step (R40), the phase standing for a program counter (R43).
Whose turn it is, the model's schedule says (log entry 3). -/
def Obligations.StepRunsPendingCommand : Prop :=
  ∀ (s : State) (i : Instr), s.phase = .busy i →
    (s.sched = [] → step s = exec i s) ∧
    (∀ turns, s.sched = .engine :: turns → step s = exec i { s with sched := turns })

/-- A table word that decodes, placed by `withFetchWord` (the accept of R39), is run by the very next step
(the model's choice, log entry 4). -/
def Obligations.PlacedWordRunsNext : Prop :=
  ∀ (s : State) (nbits w : Nat) (i : Instr), decodeTableWord nbits w = some i →
    step (s.withFetchWord nbits w) = exec i { s with phase := .busy i, done := false, range8 := false } ∧
    (s.sched = [] → step (s.withFetchWord nbits w) = exec i (s.withFetchWord nbits w))

/-- A host turn performs the host's next line as one transaction (R50, R82, R83): the answer is noted, and the line is done,
but for a poll that its read does not satisfy. The schedule and the noted replies are the model's (log entries 3, 6, 11). -/
def Obligations.HostTurnPerformsOneLine : Prop :=
  ∀ (s : State) (line : HostLine) (rest : List HostLine) (turns : List Turn), s.host = line :: rest →
    (s.sched = .host :: turns ∨ (s.sched = [] ∧ turns = [] ∧ busy s = false)) →
    (∀ off d, line = .write off d →
      step s = .next { (memWrite off d { s with sched := turns }).1 with
        host := rest, replies := .wrote off d (memWrite off d { s with sched := turns }).2 :: s.replies }) ∧
    (∀ off, line = .read off →
      step s = .next { s with
        sched := turns, host := rest
        replies := .got off (memRead off s).1 (memRead off s).2 none :: s.replies }) ∧
    (∀ off d, line = .expect off d →
      step s = .next { s with
        sched := turns, host := rest
        replies := .got off (memRead off s).1 (memRead off s).2 (some d) :: s.replies }) ∧
    (∀ off mask value, line = .poll off mask value →
      step s = .next { s with
        sched := turns
        host := if (memRead off s).1 &&& mask = value then rest else line :: rest
        replies := .got off (memRead off s).1 (memRead off s).2 none :: s.replies })

/-- No step and no command ever stops the machine (R154, R182). -/
def Obligations.MachineNeverStops : Prop :=
  (∀ s : State, ∃ t, step s = .next t) ∧ ∀ (i : Instr) (s : State), ∃ t, exec i s = .next t

/-- R181's liveness in the model's schedule (log entry 3): a command in progress completes after finitely many events unless
a reset intervenes, and until then neither CTRL nor a buffer changes (R26, R64). -/
def Obligations.PendingCommandCompletes : Prop :=
  ∀ (s : State) (op : Instr), s.phase = .busy op → Turn.reset ∉ s.sched →
    ∃ (n : Nat) (t : State), 1 ≤ n ∧ n ≤ s.sched.length + 1 ∧ Sys2Proof.core.run n s = .next t ∧
      t.phase = .idle ∧ t.done = true ∧ t.ctrl = s.ctrl ∧
      ∀ m < n, ∃ u : State, Sys2Proof.core.run m s = .next u ∧ u.phase = .busy op ∧ u.ctrl = s.ctrl ∧ KeepsBuffers s u

/-- R157: a completion and a host transaction take effect in one of the two orders, and both are admitted. With it, the three
outcomes that differ. -/
def Obligations.EitherOrderOfCompletionAndTransaction : Prop :=
  ∀ (s : State) (op : Instr) (line : HostLine) (rest : List HostLine), s.phase = .busy op → s.host = line :: rest →
    ∃ a b c : State,
      Sys2Proof.core.run 2 { s with sched := [.host, .engine] } = .next a ∧
      exec op (hostStep line rest { s with sched := [] }) = .next a ∧
      Sys2Proof.core.run 2 { s with sched := [.engine, .host] } = .next b ∧
      exec op { s with sched := [] } = .next c ∧ hostStep line rest c = b ∧
      (line = .read 0x00C#12 →
        (∃ x, a.replies = .got 0x00C#12 x none none :: s.replies ∧ x.getLsbD 0 = true) ∧
        (∃ x, b.replies = .got 0x00C#12 x none none :: s.replies ∧ x.getLsbD 0 = false ∧ x.getLsbD 1 = true)) ∧
      (∀ d : Word, d.getLsbD 1 = true → line = .write 0x00C#12 d → a.done = true ∧ b.done = false) ∧
      (∀ d : Word, line = .write 0x008#12 d →
        (a.replies = .wrote 0x008#12 d (some .busyRefused) :: s.replies ∧ a.err = true ∧ a.errcode = 2 ∧ a.phase = .idle) ∧
        (∀ op', decode d = .ok op' → b.replies = .wrote 0x008#12 d none :: s.replies ∧ b.phase = .busy op'))

/-- While BUSY = 1 a host turn disturbs neither CTRL, a buffer, the phase, nor DONE and RANGE8 being 0 to come
(R64, R26, R66). -/
def Obligations.BusyHostTurnTouchesNoData : Prop :=
  ∀ s : State, busy s = true → nextTurn s = .host →
    ∃ t, step s = .next t ∧ t.ctrl = s.ctrl ∧ t.phase = s.phase ∧ t.inBuf = s.inBuf ∧ t.wb = s.wb ∧ t.out = s.out ∧
      t.resets = s.resets ∧ t.transpose = s.transpose ∧ (t.done = true → s.done = true) ∧ (t.range8 = true → s.range8 = true)

/-- Whole-machine rule: OUT is written by QNT and RUN alone (R36), IN by the host alone (R34), WB by the host and every
command but QNT (R35), and a reset leaves no entry written (R44). The transpose buffer keeps its values but for a DCT, a RUN
and a reset; after a DCT it holds the row-pass results of the plane processed last (the model's choice, log entry 5). -/
def Obligations.WhoWritesTheBuffers : Prop :=
  ∀ s : State, ∃ t, step s = .next t ∧
    (nextTurn s = .host → t.out = s.out ∧ t.resets = s.resets) ∧
    (nextTurn s = .engine → t.inBuf = s.inBuf ∧ t.resets = s.resets) ∧
    (nextTurn s = .engine → s.phase ≠ .busy .qnt → s.phase ≠ .busy .run → t.out = s.out) ∧
    (nextTurn s = .engine → s.phase = .idle ∨ s.phase = .busy .qnt → t.wb = s.wb) ∧
    (nextTurn s = .reset → t.inBuf = [] ∧ t.wb = [] ∧ t.out = [] ∧ t.transpose = []) ∧
    (nextTurn s ≠ .reset → s.phase ≠ .busy .dct → s.phase ≠ .busy .run → t.transpose = s.transpose) ∧
    (nextTurn s = .engine → s.phase = .busy .dct → ∀ i < 8, ∀ v < 8, t.transpose.getD (8 * i + v) 0 =
      rndShr (∑ j ∈ Finset.range 8, wbInt s (np s - 1) (8 * i + j) * cosK v j) 14)

/-! ## The invariant -/

/-- The reset state meets the invariant. -/
def Obligations.InvariantAtReset : Prop := State.reset.Inv

/-- Every step keeps the invariant: the buffers' canonical form, CTRL's reserved bits, the error codes of R28 and R153, DONE
and RANGE8 clear while BUSY (R30, R32, R39). -/
def Obligations.StepKeepsInvariant : Prop := ∀ s t : State, s.Inv → step s = .next t → t.Inv

/-! ## The color-space converter and the level shifter -/

/-- R90: CSC in three-channel mode, and what it leaves unchanged. -/
def Obligations.CscConvertsRgb : Prop :=
  ∀ s : State, chan1 s = false → ∃ t, exec .csc s = .next t ∧
    (∀ k < 64, ∀ R G B : Int, R = (inByte s (3 * k)).toNat → G = (inByte s (3 * k + 1)).toNat →
      B = (inByte s (3 * k + 2)).toNat →
      wbInt t 0 k = 2990 * R + 5870 * G + 1140 * B ∧
      wbInt t 1 k = 1280000 - 1687 * R - 3313 * G + 5000 * B ∧
      wbInt t 2 k = 1280000 + 5000 * R - 4187 * G - 813 * B ∧
      (∀ c < 3, 0 ≤ wbInt t c k ∧ wbInt t c k ≤ 2555000) ∧
      (R = G → G = B → wbInt t 1 k = 1280000 ∧ wbInt t 2 k = 1280000) ∧
      (R = 12 → G = 34 → B = 56 → wbInt t 0 k = 299300 ∧ wbInt t 1 k = 1427114 ∧ wbInt t 2 k = 1152114)) ∧
    CompletedWith false s t ∧ KeepsIn s t ∧ KeepsWbFrom 192 s t ∧ KeepsOutFrom 0 s t ∧ t.transpose = s.transpose

/-- R92: CSC in single-channel mode, and what it leaves unchanged. -/
def Obligations.CscTakesGreyAsLuma : Prop :=
  ∀ s : State, chan1 s = true → ∃ t, exec .csc s = .next t ∧
    (∀ k < 64, wbInt t 0 k = 10000 * ((inByte s k).toNat : Int)) ∧
    (∀ k < 64, inByte s k = 77 → wbInt t 0 k = 770000) ∧
    CompletedWith false s t ∧ KeepsIn s t ∧ KeepsWbFrom 64 s t ∧ KeepsOutFrom 0 s t ∧ t.transpose = s.transpose

/-- R93: the ranges after CSC, each bound reached at the inputs the rule names. -/
def Obligations.CscRangesAreTight : Prop :=
  (∀ s : State, ∃ t, exec .csc s = .next t ∧ ∀ k < 64,
    (0 ≤ wbInt t 0 k ∧ wbInt t 0 k ≤ 2550000) ∧
    (chan1 s = false → (5000 ≤ wbInt t 1 k ∧ wbInt t 1 k ≤ 2555000) ∧ 5000 ≤ wbInt t 2 k ∧ wbInt t 2 k ≤ 2555000) ∧
    (∀ c < np s, wbInt t c k < 2 ^ 22)) ∧
  (∀ s : State, chan1 s = false → ∃ t, exec .csc s = .next t ∧ ∀ k < 64,
    ∀ r g b : Byte, r = inByte s (3 * k) → g = inByte s (3 * k + 1) → b = inByte s (3 * k + 2) →
    ((r, g, b) = (0, 0, 0) → wbInt t 0 k = 0) ∧ ((r, g, b) = (255, 255, 255) → wbInt t 0 k = 2550000) ∧
    ((r, g, b) = (255, 255, 0) → wbInt t 1 k = 5000) ∧ ((r, g, b) = (0, 0, 255) → wbInt t 1 k = 2555000) ∧
    ((r, g, b) = (0, 255, 255) → wbInt t 2 k = 5000) ∧ ((r, g, b) = (255, 0, 0) → wbInt t 2 k = 2555000)) ∧
  (∀ s : State, chan1 s = true → ∃ t, exec .csc s = .next t ∧ ∀ k < 64,
    (inByte s k = 0 → wbInt t 0 k = 0) ∧ (inByte s k = 255 → wbInt t 0 k = 2550000))

/-- R94: white and black are converted exactly. -/
def Obligations.WhiteAndBlackAreExact : Prop :=
  ∀ s : State, chan1 s = false → ∃ t, exec .csc s = .next t ∧ ∀ k < 64,
    ((∀ c < 3, inByte s (3 * k + c) = 255) → wbInt t 0 k = 2550000 ∧ wbInt t 1 k = 1280000 ∧ wbInt t 2 k = 1280000) ∧
    ((∀ c < 3, inByte s (3 * k + c) = 0) → wbInt t 0 k = 0 ∧ wbInt t 1 k = 1280000 ∧ wbInt t 2 k = 1280000)

/-- R97: LSH, and what it leaves unchanged. -/
def Obligations.LshSubtractsTheBias : Prop :=
  ∀ s : State, ∃ t, exec .lsh s = .next t ∧
    (∀ c < np s, ∀ k < 64, wbInt t c k = wrap32 (wbInt s c k - 1280000) ∧
      (wbInt s c k = 2550000 → wbInt t c k = 1270000) ∧ (wbInt s c k = 1280000 → wbInt t c k = 0)) ∧
    CompletedWith false s t ∧ KeepsIn s t ∧ KeepsWbFrom (64 * np s) s t ∧ KeepsOutFrom 0 s t ∧ t.transpose = s.transpose

/-- R98: when the store wraps, what LSH leaves after CSC, and that LSH is not idempotent. -/
def Obligations.LshCornerCases : Prop :=
  ∀ s : State, ∃ t, exec .lsh s = .next t ∧
    (∀ c < np s, ∀ k < 64,
      (-2146203648 ≤ wbInt s c k → wbInt t c k = wbInt s c k - 1280000) ∧
      (wbInt s c k < -2146203648 → wbInt t c k = wbInt s c k - 1280000 + 2 ^ 32) ∧
      (wbInt s c k = -2147483648 → wbInt t c k = 2146203648) ∧ (wbInt s c k = -2146203649 → wbInt t c k = 2147483647)) ∧
    (∃ u, exec .lsh t = .next u ∧
      ∀ c < np s, ∀ k < 64, -2144923648 ≤ wbInt s c k → wbInt u c k = wbInt s c k - 2560000) ∧
    (∃ v w, exec .csc s = .next v ∧ exec .lsh v = .next w ∧ ∀ c < np s, ∀ k < 64,
      wbInt w c k = wbInt v c k - 1280000 ∧ (c = 0 → -1280000 ≤ wbInt w c k ∧ wbInt w c k ≤ 1270000) ∧
      (c ≠ 0 → -1275000 ≤ wbInt w c k ∧ wbInt w c k ≤ 1275000))

/-- R99: a plane of 1280000 becomes all 0, and any grey input gives two such planes. -/
def Obligations.NeutralChromaShiftsToZero : Prop :=
  (∀ (s : State) (c : Nat), c < np s → (∀ k < 64, wbInt s c k = 1280000) →
    ∃ t, exec .lsh s = .next t ∧ ∀ k < 64, wbInt t c k = 0) ∧
  (∀ s : State, chan1 s = false →
    (∀ k < 64, inByte s (3 * k) = inByte s (3 * k + 1) ∧ inByte s (3 * k + 1) = inByte s (3 * k + 2)) →
    ∃ t u, exec .csc s = .next t ∧ exec .lsh t = .next u ∧ ∀ k < 64, wbInt u 1 k = 0 ∧ wbInt u 2 k = 0)

/-! ## The DCT engine -/

/-- R105, R108, R109, R117: DCT is the rounded row pass, then the rounded column pass, on the WB of before the command,
stored through wrap32; and what it leaves unchanged. -/
def Obligations.DctIsRowThenColumnPass : Prop :=
  ∀ s : State, ∃ t, exec .dct s = .next t ∧
    (∀ c < np s, ∀ u < 8, ∀ v < 8,
      wbInt t c (8 * u + v) =
        wrap32 (rndShr (∑ i ∈ Finset.range 8, cosK u i *
          rndShr (∑ j ∈ Finset.range 8, wbInt s c (8 * i + j) * cosK v j) 14) 14)) ∧
    (∀ c < np s, (∀ k < 64, wbInt s c k = 1270000) → ∀ k < 64, wbInt t c k = if k = 0 then 81280000 else 0) ∧
    CompletedWith false s t ∧ KeepsIn s t ∧ KeepsWbFrom (64 * np s) s t ∧ KeepsOutFrom 0 s t

/-- R110: every accumulator value of both passes, after each of its eight terms, fits in 64 bits, for every 32-bit input. -/
def Obligations.DctAccumulatorsFit : Prop :=
  (∀ v < 8, ∑ j ∈ Finset.range 8, |cosK v j| ≤ 131072) ∧
  ∀ (s : State) (c : Nat), ∀ u < 8, ∀ v < 8,
    (∀ i < 8, (∀ m ≤ 8, |∑ j ∈ Finset.range m, wbInt s c (8 * i + j) * cosK v j| ≤ 2 ^ 48) ∧
      |(rowPass (wbPlane s c)).getD (8 * i + v) 0| ≤ 2 ^ 34 + 1) ∧
    ∀ m ≤ 8, |∑ i ∈ Finset.range m, cosK u i * (rowPass (wbPlane s c)).getD (8 * i + v) 0| < 2 ^ 52

/-- R111: how large T is, when the store wraps, and that no plane that CSC and LSH leave can wrap. -/
def Obligations.DctStoreWidth : Prop :=
  (∀ (s : State) (c : Nat) (M : Int), c < np s → M ≤ 33554431 → (∀ k < 64, |wbInt s c k| ≤ M) →
    ∃ t, exec .dct s = .next t ∧ ∀ k < 64, wbInt t c k = (dctPlane (wbPlane s c)).getD k 0 ∧
      2 * |wbInt t c k| ≤ 128 * M + 9) ∧
  (∀ (s : State) (c : Nat), c < np s → (∀ k < 64, wbInt s c k = 33554432) →
    ∃ t, exec .dct s = .next t ∧ wbInt t c 0 = -2147483648) ∧
  (∀ (s : State) (c : Nat), c < np s → (∀ k < 64, wbInt s c k = 1073741824) →
    ∃ t, exec .dct s = .next t ∧ wbInt t c 0 = 0) ∧
  (∀ s : State, ∃ t u, exec .csc s = .next t ∧ exec .lsh t = .next u ∧
    ∀ c < np s, ∀ k < 64, |wbInt u c k| ≤ 1280000)

/-- R38: the cosine ROM is the rounded basis of R106, with the folding, the error bound and the row sums that the rule
gives. -/
def Obligations.CosineRomIsTheRoundedBasis : Prop :=
  (∀ u < 8, ∀ i < 8, cosK u i = Reference.roundHa (2 ^ 14 * Reference.basis u i) ∧
    |(cosK u i : ℝ) - 2 ^ 14 * Reference.basis u i| ≤ 0.455 ∧ -32768 ≤ cosK u i ∧ cosK u i ≤ 32767) ∧
  (∀ u < 8, ∀ i < 8,
    let m := (2 * i + 1) * u % 32
    let m' := if m > 16 then 32 - m else m
    let M := [16384, 22725, 21407, 19266, 16384, 12873, 8867, 4520, 0]
    cosK u i = if m' > 8 then -(M.getD (16 - m') 0) else M.getD m' 0) ∧
  (∀ i < 8, (cosK 0 i : ℝ) = 2 ^ 14 * Reference.basis 0 i ∧ (cosK 4 i : ℝ) = 2 ^ 14 * Reference.basis 4 i) ∧
  (∀ u < 8, 1 ≤ u → ∑ i ∈ Finset.range 8, cosK u i = 0) ∧ ∑ i ∈ Finset.range 8, cosK 0 i = 131072

/-- R113: T(0,0) is the sum of the plane, exactly; T(0,4), T(4,0) and T(4,4) are exact in the same way; all four equal
80000 * D. -/
def Obligations.DctIsExactAtFourPositions : Prop :=
  ∀ S : List Int, S.length = 64 →
    (dctPlane S).getD 0 0 = ∑ i ∈ Finset.range 8, ∑ j ∈ Finset.range 8, S.getD (8 * i + j) 0 ∧
    ∀ u ∈ [0, 4], ∀ v ∈ [0, 4],
      16384 ^ 2 * (dctPlane S).getD (8 * u + v) 0 =
        ∑ i ∈ Finset.range 8, ∑ j ∈ Finset.range 8, cosK u i * cosK v j * S.getD (8 * i + j) 0 ∧
      ((dctPlane S).getD (8 * u + v) 0 : ℝ) = 80000 * Reference.coeff (fun k => S.getD k 0) u v

/-- R114: a constant plane has only the (0,0) coefficient, 64 * S0; a constant sample k gives D(0,0) = 8k. -/
def Obligations.DctOfConstantPlane : Prop :=
  ∀ (S : List Int) (S0 : Int), S.length = 64 → (∀ k < 64, S.getD k 0 = S0) →
    (dctPlane S).getD 0 0 = 64 * S0 ∧ (∀ n < 64, n ≠ 0 → (dctPlane S).getD n 0 = 0) ∧
    (∀ k : Int, S0 = 10000 * k → (dctPlane S).getD 0 0 = 80000 * (8 * k) ∧
      Reference.coeff (fun n => S.getD n 0) 0 0 = 8 * k)

/-- R115: a zero plane gives a zero plane, the DCT is odd, and it is additive exactly at (0,0), (0,4), (4,0) and (4,4): at
each of the other 60 positions some two planes do not add. In WB, negation fails only at a stored -2^31. -/
def Obligations.DctLinearityCornerCases : Prop :=
  (∀ S : List Int, (∀ k < 64, S.getD k 0 = 0) → ∀ n < 64, (dctPlane S).getD n 0 = 0) ∧
  (∀ S S' : List Int, (∀ k < 64, S'.getD k 0 = -S.getD k 0) →
    ∀ n < 64, (dctPlane S').getD n 0 = -(dctPlane S).getD n 0) ∧
  (∀ (s s' : State) (c : Nat), c < np s → c < np s' → (∀ k < 64, wbInt s' c k = -wbInt s c k) →
    ∃ t t', exec .dct s = .next t ∧ exec .dct s' = .next t' ∧
      ∀ k < 64, wbInt t' c k = -wbInt t c k ∨ (wbInt t c k = -2147483648 ∧ wbInt t' c k = -2147483648)) ∧
  (∀ n < 64, n ∉ [0, 4, 32, 36] → ∃ S1 S2 S3 : List Int, S1.length = 64 ∧ S2.length = 64 ∧
    (∀ k, S3.getD k 0 = S1.getD k 0 + S2.getD k 0) ∧
    (dctPlane S3).getD n 0 ≠ (dctPlane S1).getD n 0 + (dctPlane S2).getD n 0) ∧
  (∀ S1 S2 S3 : List Int, (∀ k < 64, S3.getD k 0 = S1.getD k 0 + S2.getD k 0) →
    ∀ n ∈ [0, 4, 32, 36], (dctPlane S3).getD n 0 = (dctPlane S1).getD n 0 + (dctPlane S2).getD n 0)

/-- R116: the core's DCT is not symmetric under transposing its input: an impulse, its own transpose, gives T(1,2) = 18123 and
T(2,1) = 18122. -/
def Obligations.DctIsNotTransposeSymmetric : Prop :=
  ∀ S : List Int, S.length = 64 → (∀ k < 64, S.getD k 0 = if k = 0 then 10000 else 0) →
    (∀ i < 8, ∀ j < 8, S.getD (8 * i + j) 0 = S.getD (8 * j + i) 0) ∧
    (dctPlane S).getD (8 * 1 + 2) 0 = 18123 ∧ (dctPlane S).getD (8 * 2 + 1) 0 = 18122

/-- R118: the core's DCT is within 0.0021666 * Smax + 4.5 of the document's real transform, in T units. Every plane that CSC
and LSH leave has Smax ≤ 1280000, so the DCT of it is within 2778 in T units and 0.0348 in D units. -/
def Obligations.DctAccuracy : Prop :=
  (∀ (S : List Int) (M : Int), S.length = 64 → (∀ k < 64, |S.getD k 0| ≤ M) → ∀ u < 8, ∀ v < 8,
    |((dctPlane S).getD (8 * u + v) 0 : ℝ) - 80000 * Reference.coeff (fun k => S.getD k 0) u v| ≤ 0.0021666 * M + 4.5 ∧
    (M ≤ 1280000 →
      |((dctPlane S).getD (8 * u + v) 0 : ℝ) / 80000 - Reference.coeff (fun k => S.getD k 0) u v| ≤ 0.0348)) ∧
  ∀ s : State, ∃ a w t, exec .csc s = .next a ∧ exec .lsh a = .next w ∧ exec .dct w = .next t ∧ ∀ c < np s,
    (∀ k < 64, |wbInt w c k| ≤ 1280000) ∧
    ∀ u < 8, ∀ v < 8, |(wbInt t c (8 * u + v) : ℝ) - 80000 * Reference.coeff (wbInt w c) u v| ≤ 2778 ∧
      |(wbInt t c (8 * u + v) : ℝ) / 80000 - Reference.coeff (wbInt w c) u v| ≤ 0.0348

/-! ## The quantizer -/

/-- R12: both rounding primitives round to the nearest integer, ties away from zero; and both are odd (R11). -/
def Obligations.RoundingIsHalfAwayFromZero : Prop :=
  (∀ (a : Int) (d : Nat), 0 < d → d % 2 = 0 → divRha a d = Reference.roundHa ((a : ℝ) / d) ∧
    divRha (-a) d = -divRha a d) ∧
  (∀ (x : Int) (n : Nat), 1 ≤ n → rndShr x n = Reference.roundHa ((x : ℝ) / 2 ^ n) ∧ rndShr (-x) n = -rndShr x n)

/-- R120, R121, R122: QNT writes the rounded quotient of every T by 80000 times the plane's table entry; RANGE8; and what it
leaves unchanged. -/
def Obligations.QntRoundsTheQuotient : Prop :=
  ∀ s : State, ∃ t r, exec .qnt s = .next t ∧
    (∀ c < np s, ∀ k < 64, ∀ Q : Nat,
      Q = (if s.ctrl.getLsbD 1 then 1 else if c = 0 then lumaTable.getD k 0 else chromaTable.getD k 0) →
      1 ≤ Q ∧ |wbInt s c k| + 40000 * Q < 2 ^ 32 ∧ 80000 * Q < 2 ^ 24 ∧ |outInt t c k| < 2 ^ 15 ∧
      outInt t c k = Reference.roundHa ((wbInt s c k : ℝ) / (80000 * Q)) ∧
      (0 ≤ wbInt s c k → outInt t c k = (wbInt s c k + 40000 * Q) / (80000 * Q)) ∧
      (wbInt s c k < 0 → outInt t c k = -((-wbInt s c k + 40000 * Q) / (80000 * Q)))) ∧
    (r = true ↔ ∃ c < np s, ∃ k < 64, outInt t c k < -128 ∨ 127 < outInt t c k) ∧
    CompletedWith r s t ∧ KeepsIn s t ∧ KeepsWbFrom 0 s t ∧ KeepsOutFrom (64 * np s) s t ∧ t.transpose = s.transpose

/-- R123: every quantized value fits OUT's 16 bits, so it is never saturated and never wrapped; the bound is reached. -/
def Obligations.QuantizedValueFits16Bits : Prop :=
  (∀ (t : Int) (Q : Nat), -2147483648 ≤ t → t ≤ 2147483647 → 1 ≤ Q → |quantize t Q| ≤ 26844 ∧
    (BitVec.ofInt 16 (quantize t Q)).toInt = quantize t Q) ∧
  quantize (-2147483648) 1 = -26844 ∧ quantize 2147483647 1 = 26844

/-- R125: with QTAB = 1 the quantizer rounds the coefficients T/80000 themselves, and a second QNT gives the same OUT. -/
def Obligations.IdentityTableRoundsCoefficients : Prop :=
  ∀ s : State, qtab s = true → ∃ t u, exec .qnt s = .next t ∧ exec .qnt t = .next u ∧
    (∀ c < np s, ∀ k < 64, outInt t c k = Reference.roundHa ((wbInt s c k : ℝ) / 80000)) ∧
    (∀ n, wbEntry t n = wbEntry s n) ∧ (∀ n, outEntry u n = outEntry t n) ∧ u.range8 = t.range8

/-! ## RUN and the whole pipeline -/

/-- R135: RUN is CSC, LSH, DCT and QNT in pipeline order. -/
def Obligations.RunIsThePipeline : Prop :=
  ∀ s : State, ∃ s1 s2 s3 t, exec .csc s = .next s1 ∧ exec .lsh s1 = .next s2 ∧ exec .dct s2 = .next s3 ∧
    exec .qnt s3 = .next t ∧ exec .run s = .next t ∧ CompletedWith t.range8 s t ∧
    KeepsIn s t ∧ KeepsWbFrom (64 * np s) s t ∧ KeepsOutFrom (64 * np s) s t

/-- R136: RUN accepted and completed leaves the state that the four commands leave, each accepted and completed in order;
STATUS.DONE is 1 after each of them, and STATUS.BUSY is 1 from RUN's accept. WB after RUN is what DCT left, T on the processed
planes, and not what LSH left. -/
def Obligations.RunEqualsTheFourCommands : Prop :=
  ∀ s : State, busy s = false → ∃ s1 s2 s3 t,
    exec .csc (memWrite 0x008#12 0x1#32 s).1 = .next s1 ∧ exec .lsh (memWrite 0x008#12 0x2#32 s1).1 = .next s2 ∧
    exec .dct (memWrite 0x008#12 0x3#32 s2).1 = .next s3 ∧ exec .qnt (memWrite 0x008#12 0x4#32 s3).1 = .next t ∧
    exec .run (memWrite 0x008#12 0x5#32 s).1 = .next t ∧
    s1.done = true ∧ s2.done = true ∧ s3.done = true ∧ t.done = true ∧
    (∀ n, wbEntry t n = wbEntry s3 n) ∧
    (∀ c < np s, ∀ k < 64, wbInt t c k = wrap32 ((dctPlane (wbPlane s2 c)).getD k 0)) ∧
    busy (memWrite 0x008#12 0x5#32 s).1 = true ∧ (memWrite 0x008#12 0x5#32 s).1.done = false ∧ busy t = false

/-- R137, and R6 for every command: a command overwrites all the entries it produces, and they and RANGE8 are a function only
of the entries it reads and of CTRL's CHAN1 and QTAB: of nothing that an earlier command, an earlier block or the contents
after a reset left elsewhere. Between commands the buffers keep their values: through every event but a completion, a reset
and a host write, and through a host write of a register. -/
def Obligations.ResultsDependOnlyOnOperands : Prop :=
  (∀ (i : Instr) (s t : State), chan1 s = chan1 t → qtab s = qtab t →
    (i = .csc ∨ i = .run → ∀ b < (if chan1 s then 64 else 192), inByte s b = inByte t b) →
    (i = .lsh ∨ i = .dct ∨ i = .qnt → ∀ n < 64 * np s, wbEntry s n = wbEntry t n) →
    ∃ s' t', exec i s = .next s' ∧ exec i t = .next t' ∧
      (i ≠ .qnt → ∀ n < 64 * np s, wbEntry s' n = wbEntry t' n ∧ (Memory.read s'.wb n).isSome) ∧
      (i = .qnt ∨ i = .run → ∀ n < 64 * np s, outEntry s' n = outEntry t' n ∧ (Memory.read s'.out n).isSome) ∧
      s'.range8 = t'.range8) ∧
  (∀ s : State, nextTurn s ≠ .reset → (nextTurn s = .engine → s.phase = .idle) →
    (nextTurn s = .host → ∀ off d rest, s.host ≠ .write off d :: rest) → ∃ t, step s = .next t ∧ KeepsBuffers s t) ∧
  (∀ (s : State) (off : Offset) (d : Word), off.toNat < 0x100 → KeepsBuffers s (memWrite off d s).1)

/-- R138: the bounds of a RUN with the standard tables, on any IN and in either channel mode, and the inputs that the rule
says reach them: a black Y plane (81920000), pure blue (60), and +127 where A(2,j) > 0, -128 elsewhere (94). -/
def Obligations.RunBounds : Prop :=
  (∀ s : State, qtab s = false → ∃ v w t, exec .csc s = .next v ∧ exec .lsh v = .next w ∧ exec .run s = .next t ∧
    (∀ c < np s, ∀ k < 64, (0 ≤ wbInt v c k ∧ wbInt v c k ≤ 2555000) ∧
      (-1280000 ≤ wbInt w c k ∧ wbInt w c k ≤ 1275000) ∧ |wbInt t c k| ≤ 81920000 ∧
      (c = 0 → |outInt t c k| ≤ 95) ∧ (c ≠ 0 → |outInt t c k| ≤ 60)) ∧ t.range8 = false) ∧
  (∀ s : State, (∀ b < inBytesRead s, inByte s b = 0) →
    ∃ t, exec .run s = .next t ∧ wbInt t 0 0 = -81920000 ∧ |wbInt t 0 0| = 81920000) ∧
  (∀ s : State, qtab s = false → chan1 s = false →
    (∀ k < 64, inByte s (3 * k) = 0 ∧ inByte s (3 * k + 1) = 0 ∧ inByte s (3 * k + 2) = 255) →
    ∃ v t, exec .csc s = .next v ∧ exec .run s = .next t ∧ (∀ k < 64, wbInt v 1 k = 2555000) ∧ outInt t 1 0 = 60) ∧
  (∀ s : State, qtab s = false →
    (∀ k < 64, ∀ b ∈ if chan1 s then [k] else [3 * k, 3 * k + 1, 3 * k + 2],
      (0 < Reference.basis 2 (k % 8) → inByte s b = 255) ∧ (¬0 < Reference.basis 2 (k % 8) → inByte s b = 0)) →
    ∃ v w t, exec .csc s = .next v ∧ exec .lsh v = .next w ∧ exec .run s = .next t ∧
      (∀ k < 64, (0 < Reference.basis 2 (k % 8) → wbInt w 0 k = 1270000) ∧
        (¬0 < Reference.basis 2 (k % 8) → wbInt w 0 k = -1280000)) ∧
      outInt t 0 2 = 94)

/-- R139: the all-white block through the whole pipeline. -/
def Obligations.WhiteBlockEndToEnd : Prop :=
  ∀ s : State, chan1 s = false → qtab s = false → (∀ b < 192, inByte s b = 255) →
    ∃ v w x t, exec .csc s = .next v ∧ exec .lsh v = .next w ∧ exec .dct w = .next x ∧ exec .run s = .next t ∧
      (∀ k < 64, wbInt v 0 k = 2550000 ∧ wbInt v 1 k = 1280000 ∧ wbInt v 2 k = 1280000) ∧
      (∀ k < 64, wbInt w 0 k = 1270000 ∧ wbInt w 1 k = 0 ∧ wbInt w 2 k = 0) ∧
      (∀ c < 3, ∀ k < 64, wbInt x c k = if c = 0 ∧ k = 0 then 81280000 else 0) ∧
      (∀ c < 3, ∀ k < 64, wbInt t c k = wbInt x c k ∧ outInt t c k = if c = 0 ∧ k = 0 then 64 else 0) ∧
      t.range8 = false

/-- R140: how the core's quantized values stand to the document's real D/Q. -/
def Obligations.RelationToTheReference : Prop :=
  ∀ s : State, ∃ v w t, exec .csc s = .next v ∧ exec .lsh v = .next w ∧ exec .run s = .next t ∧
    ∀ c < np s, ∀ u < 8, ∀ z < 8, ∀ (Q : Nat) (x : ℝ), Q = quantDivisor s c (8 * u + z) →
      x = Reference.coeff (wbInt w c) u z / Q →
      |(wbInt t c (8 * u + z) : ℝ) / (80000 * Q) - x| ≤ 0.0348 / Q ∧
      ((∀ n : ℤ, 0.0348 / Q < |x - (n + 1 / 2)|) → outInt t c (8 * u + z) = Reference.roundHa x) ∧
      ((u = 0 ∨ u = 4) → (z = 0 ∨ z = 4) → (wbInt t c (8 * u + z) : ℝ) / (80000 * Q) = x ∧
        outInt t c (8 * u + z) = Reference.roundHa x) ∧
      |outInt t c (8 * u + z) - Reference.roundHa x| ≤ 1

/-- R141: RUN in single-channel mode processes plane 0 only, with the sample as Y. -/
def Obligations.SingleChannelRun : Prop :=
  ∀ s : State, chan1 s = true → ∃ t S, exec .run s = .next t ∧ S.length = 64 ∧
    (∀ k < 64, S.getD k 0 = 10000 * ((inByte s k).toNat : Int) - 1280000 ∧ wbInt t 0 k = (dctPlane S).getD k 0 ∧
      outInt t 0 k = divRha (wbInt t 0 k) (80000 * (if qtab s then 1 else luma k)) ∧
      |wbInt t 0 k| ≤ 81920000 ∧ (qtab s = false → |outInt t 0 k| ≤ 95)) ∧
    (qtab s = false → t.range8 = false) ∧
    CompletedWith t.range8 s t ∧ KeepsIn s t ∧ KeepsWbFrom 64 s t ∧ KeepsOutFrom 64 s t

/-! ## Completion and the status flags -/

/-- R46: which commands write which status flags and which buffers at completion; command errors write ERR and ERRCODE
only. -/
def Obligations.CommandsWriteTheirFlagsAndBuffers : Prop :=
  ∀ (i : Instr) (s : State), ∃ t, exec i s = .next t ∧ t.done = true ∧ KeepsError s t ∧
    (i = .csc ∨ i = .lsh ∨ i = .dct → t.range8 = false ∧ KeepsWbFrom (64 * np s) s t ∧ KeepsOutFrom 0 s t) ∧
    (i = .qnt → KeepsWbFrom 0 s t ∧ KeepsOutFrom (64 * np s) s t) ∧
    (i = .run → KeepsWbFrom (64 * np s) s t ∧ KeepsOutFrom (64 * np s) s t) ∧
    (i = .qnt ∨ i = .run → (t.range8 = true ↔ ∃ c < np s, ∃ k < 64, outInt t c k < -128 ∨ 127 < outInt t c k)) ∧
    (i ≠ .qnt → ∀ n < 64 * np s, (Memory.read t.wb n).isSome) ∧
    (i = .qnt ∨ i = .run → ∀ n < 64 * np s, (Memory.read t.out n).isSome) ∧
    KeepsIn s t ∧ t.phase = .idle ∧ t.ctrl = s.ctrl ∧ KeepsAgents s t ∧
    ∀ d : Word, (busy s = true ∨ ∃ why, decode d = .error why) →
      ∃ e c, (memWrite 0x008#12 d s).1 = { s with err := e, errcode := c }

/-- R29: BUSY is 1 exactly while the phase is BUSY: set at accept, cleared at completion or by reset, and otherwise no host
write changes it. -/
def Obligations.BusyIsThePhase : Prop :=
  (∀ s : State, (statusWord s).getLsbD 0 = true ↔ ∃ op, s.phase = .busy op) ∧
  (∀ (s : State) (d : Word) (op : Instr), busy s = false → decode d = .ok op → busy (memWrite 0x008#12 d s).1 = true) ∧
  (∀ (i : Instr) (s : State), ∃ t, exec i s = .next t ∧ busy t = false) ∧
  (∀ s : State, nextTurn s = .reset → ∃ t, step s = .next t ∧ busy t = false) ∧
  (∀ (s : State) (off : Offset) (d : Word), (busy s = true ∨ off ≠ 0x008#12 ∨ ∀ op, decode d ≠ .ok op) →
    busy (memWrite off d s).1 = busy s)

/-- R30: what sets DONE and what clears it. -/
def Obligations.DoneIsSetAndCleared : Prop :=
  (∀ (i : Instr) (s : State), ∃ t, exec i s = .next t ∧ t.done = true) ∧
  (∀ (s : State) (d : Word) (op : Instr), busy s = false → decode d = .ok op → (memWrite 0x008#12 d s).1.done = false) ∧
  (∀ (s : State) (d : Word), d.getLsbD 1 = true → (memWrite 0x00C#12 d s).1.done = false) ∧
  (∀ s : State, nextTurn s = .reset → ∃ t, step s = .next t ∧ t.done = false) ∧
  (∀ (s : State) (d : Word), (busy s = true ∨ ∃ why, decode d = .error why) → (memWrite 0x008#12 d s).1.done = s.done)

/-- R31 and R150: a command error sets ERR and ERRCODE, the most recent code, and changes nothing else; a write to STATUS with
bit 2 set and reset clear both; accepting a command does not. -/
def Obligations.CommandErrorsAreRecorded : Prop :=
  (∀ (s : State) (d : Word), busy s = true → (memWrite 0x008#12 d s).1 = { s with err := true, errcode := 2 }) ∧
  (∀ (s : State) (d : Word) (why : Illegal), busy s = false → decode d = .error why →
    (memWrite 0x008#12 d s).1 = { s with err := true, errcode := 1 }) ∧
  (∀ (s : State) (d : Word), d.getLsbD 2 = true →
    (memWrite 0x00C#12 d s).1.err = false ∧ (memWrite 0x00C#12 d s).1.errcode = 0) ∧
  (∀ s : State, nextTurn s = .reset → ∃ t, step s = .next t ∧ t.err = false ∧ t.errcode = 0) ∧
  (∀ (s : State) (d : Word) (op : Instr), busy s = false → decode d = .ok op →
    (memWrite 0x008#12 d s).1.err = s.err ∧ (memWrite 0x008#12 d s).1.errcode = s.errcode)

/-- R32: RANGE8 is cleared at accept, set by QNT and RUN when a quantized value of a processed plane lies outside [-128, 127],
left 0 by the other commands, and cleared by a write with bit 3 set. -/
def Obligations.Range8ReportsTheResult : Prop :=
  (∀ (s : State) (d : Word) (op : Instr), busy s = false → decode d = .ok op →
    (memWrite 0x008#12 d s).1.range8 = false) ∧
  (∀ s : State, ∀ i ∈ [Instr.qnt, Instr.run], ∃ t, exec i s = .next t ∧
    (t.range8 = true ↔ ∃ c < np s, ∃ k < 64, outInt t c k < -128 ∨ 127 < outInt t c k) ∧
    ∀ c < np s, ∀ k < 64,
      outInt t c k = divRha (wbInt t c k) (80000 * quantDivisor s c k)) ∧
  (∀ s : State, ∀ i ∈ [Instr.csc, Instr.lsh, Instr.dct], ∃ t, exec i s = .next t ∧ t.range8 = false) ∧
  (∀ (s : State) (d : Word), d.getLsbD 3 = true → (memWrite 0x00C#12 d s).1.range8 = false)

/-- R33 and R63: STATUS is read as R28 lays it out and written with W1C semantics, both at any time. -/
def Obligations.StatusReadAndClear : Prop :=
  ∀ (s : State) (d : Word),
    (∃ x, memRead 0x00C#12 s = (x, none) ∧ x.getLsbD 0 = busy s ∧ x.getLsbD 1 = s.done ∧ x.getLsbD 2 = s.err ∧
      x.getLsbD 3 = s.range8 ∧ x.extractLsb' 4 4 = 0 ∧ x.extractLsb' 8 4 = s.errcode ∧ x.extractLsb' 12 20 = 0) ∧
    ∃ t, memWrite 0x00C#12 d s = (t, none) ∧
      (t.done = if d.getLsbD 1 then false else s.done) ∧ (t.err = if d.getLsbD 2 then false else s.err) ∧
      (t.errcode = if d.getLsbD 2 then 0 else s.errcode) ∧ (t.range8 = if d.getLsbD 3 then false else s.range8) ∧
      t = { s with done := t.done, err := t.err, errcode := t.errcode, range8 := t.range8 }

/-- R42: the IRQ line, and with it R158: enabling a pending source raises the line at once, and no enable changes a pending
bit. -/
def Obligations.InterruptLine : Prop :=
  ∀ s : State,
    (irq s = true ↔ (s.done = true ∧ s.ctrl.getLsbD 8 = true) ∨ (s.err = true ∧ s.ctrl.getLsbD 9 = true)) ∧
    (∀ d : Word, busy s = false → ∃ t, memWrite 0x004#12 d s = (t, none) ∧ t.done = s.done ∧ t.err = s.err ∧
      (irq t = true ↔ (s.done = true ∧ d.getLsbD 8 = true) ∨ (s.err = true ∧ d.getLsbD 9 = true))) ∧
    (∀ r : Bool, irq { s with range8 := r } = irq s)

/-! ## The register port -/

/-- R61 and R15: CTRL's stored bits, the plane count that CHAN1 selects; and the tables that QTAB selects (R121). -/
def Obligations.CtrlReadAndWrite : Prop :=
  ∀ (s : State) (d : Word), busy s = false →
    memRead 0x004#12 s = (s.ctrl, none) ∧
    memWrite 0x004#12 d s = ({ s with ctrl := d &&& 0x00000303#32 }, none) ∧
    memRead 0x004#12 (memWrite 0x004#12 d s).1 = (d &&& 0x00000303#32, none) ∧
    np (memWrite 0x004#12 d s).1 = (if d.getLsbD 0 then 1 else 3) ∧
    (∀ c k, quantDivisor (memWrite 0x004#12 d s).1 c k =
      if d.getLsbD 1 then 1 else if c = 0 then luma k else chroma k)

/-- R85: the CTRL word of a configuration selects it, and reserved bits written as 1 are ignored. -/
def Obligations.CtrlWordSelectsConfiguration : Prop :=
  ∀ (s : State) (a b c d : Bool) (reserved : Word), busy s = false →
    (ctrlWord a b c d).toNat = a.toNat + 2 * b.toNat + 256 * c.toNat + 512 * d.toNat ∧
    ∃ t, memWrite 0x004#12 (ctrlWord a b c d ||| (reserved &&& ~~~0x00000303#32)) s = (t, none) ∧
      t.ctrl = ctrlWord a b c d ∧ chan1 t = a ∧ qtab t = b ∧ ieDone t = c ∧ ieErr t = d

/-- R57, with the byte order of R56: a read and a write of an IN word, and what the write leaves unchanged. -/
def Obligations.InWordTransactions : Prop :=
  ∀ (s : State) (w : Nat) (d : Word), busy s = false → w < 48 →
    (∃ x, memRead (inOffset w) s = (x, none) ∧ ∀ b < 4, x.extractLsb' (8 * b) 8 = inByte s (4 * w + b)) ∧
    (inOffset w).toNat = 0x100 + 4 * w ∧
    ∃ t, memWrite (inOffset w) d s = (t, none) ∧
      (∀ b < 4, inByte t (4 * w + b) = d.extractLsb' (8 * b) 8) ∧
      (∀ a, a < 4 * w ∨ 4 * w + 4 ≤ a → inByte t a = inByte s a) ∧ t = { s with inBuf := t.inBuf }

/-- R58: a read and a write of a WB entry, and what the write leaves unchanged. -/
def Obligations.WbTransactions : Prop :=
  ∀ (s : State) (c k : Nat) (d : Word), busy s = false → c < 3 → k < 64 →
    (wbOffset c k).toNat = 0x400 + 0x100 * c + 4 * k ∧
    (∃ x, memRead (wbOffset c k) s = (x, none) ∧ x.toInt = wbInt s c k) ∧
    ∃ t, memWrite (wbOffset c k) d s = (t, none) ∧ wbInt t c k = d.toInt ∧
      (∀ n, n ≠ 64 * c + k → wbEntry t n = wbEntry s n) ∧ t = { s with wb := t.wb }

/-- R59: a read of an OUT entry returns it sign-extended; a write raises READONLY, whether the engine is idle or not. -/
def Obligations.OutTransactions : Prop :=
  ∀ (s : State) (c k : Nat) (d : Word), c < 3 → k < 64 →
    (outOffset c k).toNat = 0x800 + 0x100 * c + 4 * k ∧
    (busy s = false → ∃ x, memRead (outOffset c k) s = (x, none) ∧ x.toInt = outInt s c k) ∧
    memWrite (outOffset c k) d s = (s, some .readonly)

/-- R60, and R27's read: ID and CMD at any time. -/
def Obligations.IdAndCmdReads : Prop :=
  ∀ (s : State) (d : Word),
    memRead 0x000#12 s = (0x59434331#32, none) ∧ memWrite 0x000#12 d s = (s, some .readonly) ∧
    memRead 0x008#12 s = (0x00000000#32, none)

/-- R156: the checks of one transaction in their order, the first that applies deciding (R146 to R149, R152), with the effect
R145 gives a bus error; and where none applies the transaction is performed and answered OK, a CMD write by its decoding. -/
def Obligations.ChecksRunInOrder : Prop :=
  ∀ (s : State) (off : Offset) (d : Word),
    let a := off.toNat
    let misaligned := a % 4 ≠ 0
    let unmapped := (0x010 ≤ a ∧ a < 0x100) ∨ (0x1C0 ≤ a ∧ a < 0x400) ∨ (0x700 ≤ a ∧ a < 0x800) ∨ 0xB00 ≤ a
    let isOut := 0x800 ≤ a ∧ a < 0xB00
    let isData := a = 0x004 ∨ (0x100 ≤ a ∧ a < 0x1C0) ∨ (0x400 ≤ a ∧ a < 0x700) ∨ isOut
    (misaligned → memRead off s = (0, some .misaligned) ∧ memWrite off d s = (s, some .misaligned)) ∧
    (¬misaligned → unmapped → memRead off s = (0, some .unmapped) ∧ memWrite off d s = (s, some .unmapped)) ∧
    (¬misaligned → a = 0x000 ∨ isOut → memWrite off d s = (s, some .readonly)) ∧
    (busy s = true → a = 0x008 →
      memWrite off d s = ({ s with err := true, errcode := 2 }, some .busyRefused)) ∧
    (busy s = true → ¬misaligned → isData → memRead off s = (0, some .busyRefused) ∧
      (¬isOut → memWrite off d s = (s, some .busyRefused))) ∧
    (¬misaligned → ¬unmapped → (busy s = false ∨ ¬isData) → ∃ t, addressMap off = some t ∧
      memRead off s = (readTarget t s, none) ∧
      ((a ≠ 0x000 ∧ ¬isOut ∧ (busy s = false ∨ a ≠ 0x008)) → memWrite off d s = (writeTarget t d s, none))) ∧
    (busy s = false → a = 0x008 →
      (∀ why, decode d = .error why → memWrite off d s = ({ s with err := true, errcode := 1 }, none)) ∧
      (∀ op, decode d = .ok op →
        memWrite off d s = ({ s with phase := .busy op, done := false, range8 := false }, none)))

/-- R65: reads change nothing but what the host holds; writes to anything but CMD are idempotent; a write to CMD is not. -/
def Obligations.ReadsAndRepeatedWrites : Prop :=
  (∀ (s : State) (off : Offset) (rest : List HostLine), s.host = .read off :: rest → nextTurn s = .host →
    ∃ t, step s = .next t ∧ t = { s with host := t.host, sched := t.sched, replies := t.replies }) ∧
  (∀ (s : State) (off : Offset) (d : Word), off ≠ 0x008#12 →
    memWrite off d (memWrite off d s).1 = ((memWrite off d s).1, (memWrite off d s).2)) ∧
  (∃ (s : State) (d : Word), (memWrite 0x008#12 d (memWrite 0x008#12 d s).1).1 ≠ (memWrite 0x008#12 d s).1)

/-- R51: BASE is 4 KiB aligned, and a platform address inside the window reaches offset A - BASE; no other address reaches the
core. -/
def Obligations.WindowDecoding : Prop :=
  Config.base % 4096 = 0 ∧
  ∀ A : Nat, (∀ off, windowOffset A = some off ↔ A = Config.base + off.toNat) ∧
    (windowOffset A = none ↔ A < Config.base ∨ Config.base + 4096 ≤ A)

/-- An entry that is not written since reset reads as a free value of its width, through the port as well (R44; the free value
is the model's, log entry 1), and a host write of one entry leaves every other entry's status as it was. -/
def Obligations.UnwrittenEntriesReadFree : Prop :=
  ∀ (s : State) (c k : Nat) (d : Word), busy s = false → c < 3 → k < 64 →
    (Memory.read s.wb (64 * c + k) = none →
      memRead (wbOffset c k) s = (Config.unwrittenWb s.resets (64 * c + k), none)) ∧
    (Memory.read s.out (64 * c + k) = none →
      memRead (outOffset c k) s = ((Config.unwrittenOut s.resets (64 * c + k)).signExtend 32, none)) ∧
    (∀ b, Memory.read s.inBuf b = none → inByte s b = Config.unwrittenIn s.resets b) ∧
    (∀ n, n ≠ 64 * c + k → Memory.read (memWrite (wbOffset c k) d s).1.wb n = Memory.read s.wb n)

/-- R84: the fill pattern of FILLIN. Byte b of the word it writes at w is taken from (b0, b1, b2) by 4w + b mod 3. -/
def Obligations.FillinPattern : Prop :=
  ∀ (b0 b1 b2 : Byte) (w : Nat), w < 48 → ∃ x : Word,
    (linesFillin b0 b1 b2)[w]? = some (.write (inOffset w) x) ∧ (linesFillin b0 b1 b2).length = 48 ∧
    ∀ b < 4, x.extractLsb' (8 * b) 8 = if (4 * w + b) % 3 = 0 then b0 else if (4 * w + b) % 3 = 1 then b1 else b2

/-! ## Reset -/

/-- R170 and R171, with the values of R45: reset at any time, also during a command, which never completes. CTRL, STATUS and
IRQ are 0, the phase is IDLE, and every entry of IN, WB and OUT is unspecified (in the model: not listed). The
clauses on host, replies and resets are the model's choice (log entries 1 and 7). -/
def Obligations.ResetLeavesTheResetState : Prop :=
  ∀ s : State, nextTurn s = .reset → ∃ t, step s = .next t ∧
    t.ctrl = 0 ∧ statusWord t = 0 ∧ t.phase = .idle ∧ irq t = false ∧
    (∀ n, Memory.read t.inBuf n = none ∧ Memory.read t.wb n = none ∧ Memory.read t.out n = none) ∧
    t.host = s.host ∧ t.replies = s.replies ∧ t.resets = s.resets + 1 ∧
    State.reset.ctrl = 0 ∧ statusWord State.reset = 0 ∧ State.reset.phase = .idle ∧ irq State.reset = false ∧
    (∀ n, Memory.read State.reset.inBuf n = none ∧ Memory.read State.reset.wb n = none ∧
      Memory.read State.reset.out n = none)
end

