-- ==== Sys2Proof/Laws/Arith.lean ====
section
/-! SUPPORT. The laws of the rounding primitives (R11, R12) and of the 32-bit store (R10). -/

namespace Sys2Proof.Machine

theorem sgn_mul_natAbs (x : Int) : sgn x * (x.natAbs : Int) = x := by
  unfold sgn; split <;> omega

/-- `n = (|x| + h) / d` is the magnitude of a rounded quotient: d*n lies within h of |x|. -/
theorem rounded_magnitude_bounds (a h d : Nat) (hd : 0 < d) (hh : 2 * h = d) :
    a ≤ d * ((a + h) / d) + h ∧ d * ((a + h) / d) ≤ a + h := by
  have h1 := Nat.div_add_mod (a + h) d
  have h2 := Nat.mod_lt (a + h) hd
  omega

/-- `div_rha` of an even divisor: d * q lies within d / 2 of a (R11). -/
theorem divRha_near (a : Int) (d : Nat) (hd : 0 < d) (he : d % 2 = 0) :
    2 * |(d : Int) * divRha a d - a| ≤ d := by
  obtain ⟨h1, h2⟩ := rounded_magnitude_bounds a.natAbs (d / 2) d hd (by omega)
  unfold divRha sgn
  generalize (a.natAbs + d / 2) / d = q at *
  have e : ((d * q : Nat) : Int) = d * q := by push_cast; ring
  split
  · rw [show (d : Int) * (-1 * (q : Int)) = -((d * q : Nat) : Int) by rw [e]; ring]
    generalize d * q = p at *
    rcases abs_cases (-(p : Int) - a) with ⟨h, _⟩ | ⟨h, _⟩ <;> rw [h] <;> omega
  · rw [show (d : Int) * (1 * (q : Int)) = ((d * q : Nat) : Int) by rw [e]; ring]
    generalize d * q = p at *
    rcases abs_cases ((p : Int) - a) with ⟨h, _⟩ | ⟨h, _⟩ <;> rw [h] <;> omega

/-- `rnd_shr(x, n)` is `div_rha(x, 2^n)` (R11, R12). -/
theorem rndShr_eq_divRha (x : Int) (n : Nat) (hn : 1 ≤ n) : rndShr x n = divRha x (2 ^ n) := by
  obtain ⟨m, rfl⟩ : ∃ m, n = m + 1 := ⟨n - 1, by omega⟩
  have : 2 ^ (m + 1) / 2 = 2 ^ m := by rw [pow_succ]; omega
  simp [rndShr, divRha, this]

/-- The rounded shift of the DCT passes lies within half of 2^14 of its argument (R108, R109). -/
theorem rndShr_near (x : Int) : 2 * |16384 * rndShr x 14 - x| ≤ 16384 := by
  rw [rndShr_eq_divRha x 14 (by omega)]
  exact_mod_cast divRha_near x (2 ^ 14) (by norm_num) (by norm_num)

theorem divRha_zero (d : Nat) (hd : 0 < d) : divRha 0 d = 0 := by
  have : (d / 2) / d = 0 := Nat.div_eq_of_lt (by omega)
  simp [divRha, this]

/-- `div_rha` is odd (R11). -/
theorem divRha_neg (a : Int) (d : Nat) (hd : 0 < d) : divRha (-a) d = -divRha a d := by
  rcases eq_or_ne a 0 with rfl | ha
  · simp [divRha_zero d hd]
  · unfold divRha sgn
    rw [Int.natAbs_neg]
    split <;> split <;> omega

/-- `rnd_shr` is odd (R11). -/
theorem rndShr_neg (x : Int) (n : Nat) (hn : 1 ≤ n) : rndShr (-x) n = -rndShr x n := by
  rw [rndShr_eq_divRha _ n hn, rndShr_eq_divRha _ n hn, divRha_neg _ _ (by positivity)]

/-- A multiple of 2^14 is shifted exactly (R113). -/
theorem rndShr_exact (x : Int) : rndShr (16384 * x) 14 = x := by
  have h := rndShr_near (16384 * x)
  generalize rndShr (16384 * x) 14 = y at h
  rcases abs_cases (16384 * y - 16384 * x) with ⟨h', _⟩ | ⟨h', _⟩ <;> rw [h'] at h <;> omega

theorem rndShr_zero : rndShr 0 14 = 0 := by decide

theorem sum8_congr {f g : Nat → Int} (h : ∀ j < 8, f j = g j) : sum8 f = sum8 g := by
  simp only [sum8, h 0 (by omega), h 1 (by omega), h 2 (by omega), h 3 (by omega), h 4 (by omega), h 5 (by omega),
    h 6 (by omega), h 7 (by omega)]

/-- One accumulation as a sum over 0..7 (R105). -/
theorem sum8_eq_sum (f : Nat → Int) : sum8 f = ∑ j ∈ Finset.range 8, f j := by
  simp [sum8, Finset.sum_range_succ]

/-- A value of the 32-bit range is stored exactly (R10). -/
theorem toInt_bits32 {x : Int} (h1 : -2147483648 ≤ x) (h2 : x ≤ 2147483647) : (bits32 x).toInt = x := by
  rw [bits32, BitVec.toInt_ofInt, Int.bmod_eq_of_le] <;> norm_num <;> omega

theorem wrap32_eq {x : Int} (h1 : -2147483648 ≤ x) (h2 : x ≤ 2147483647) : wrap32 x = x := toInt_bits32 h1 h2

/-- A stored word reads back as `wrap32` of the exact value (R10). -/
@[simp] theorem toInt_bits32_wrap (x : Int) : (bits32 x).toInt = wrap32 x := rfl

/-- The value of a word packed from four bytes (R56). -/
theorem packBytes_toNat (a b c d : Byte) :
    (packBytes a b c d).toNat = a.toNat + 256 * b.toNat + 65536 * c.toNat + 16777216 * d.toNat := by
  unfold packBytes
  rw [BitVec.toNat_append, BitVec.toNat_append, BitVec.toNat_append, ← Nat.shiftLeft_add_eq_or_of_lt a.isLt,
    ← Nat.shiftLeft_add_eq_or_of_lt b.isLt, ← Nat.shiftLeft_add_eq_or_of_lt c.isLt]
  simp only [Nat.shiftLeft_eq]
  omega

/-- Bits 8i+7 : 8i of a packed word are its byte i (R56). -/
theorem packBytes_byte (a b c d : Byte) (i : Nat) (hi : i < 4) :
    (packBytes a b c d).extractLsb' (8 * i) 8 = [a, b, c, d].getD i 0 := by
  have := a.isLt; have := b.isLt; have := c.isLt; have := d.isLt
  apply BitVec.eq_of_toNat_eq
  rw [BitVec.extractLsb'_toNat, packBytes_toNat, Nat.shiftRight_eq_div_pow]
  have : i = 0 ∨ i = 1 ∨ i = 2 ∨ i = 3 := by omega
  rcases this with rfl | rfl | rfl | rfl <;> simp <;> omega

end Sys2Proof.Machine
end

