-- ==== Sys2Proof/Laws/Decode.lean ====
section
/-! SUPPORT. Decoding and encoding agree on every word (R76 to R79). -/

namespace Sys2Proof

/-- RSV is all of the word above OP. -/
theorem rsvField_toNat (d : Word) : (rsvField d).toNat = d.toNat / 16 := by
  have := d.isLt
  simp only [rsvField, BitVec.extractLsb'_toNat, Nat.shiftRight_eq_div_pow]
  omega

theorem opField_toNat (d : Word) : (opField d).toNat = d.toNat % 16 := by
  simp [opField, BitVec.extractLsb'_toNat]

theorem rsvField_eq_zero (d : Word) : rsvField d = 0 ↔ d.toNat / 16 = 0 := by
  rw [← rsvField_toNat, ← BitVec.toNat_inj]; rfl

/-- What the decoder answers, by the value of the word (R78). -/
theorem decode_eq (d : Word) :
    decode d =
      if d.toNat / 16 ≠ 0 then .error .reservedBits
      else if d.toNat = 1 then .ok .csc
      else if d.toNat = 2 then .ok .lsh
      else if d.toNat = 3 then .ok .dct
      else if d.toNat = 4 then .ok .qnt
      else if d.toNat = 5 then .ok .run
      else .error .reservedOpcode := by
  unfold decode
  by_cases h : d.toNat / 16 = 0
  · have h16 : d.toNat % 16 = d.toNat := by omega
    rw [if_neg (not_not.2 ((rsvField_eq_zero d).2 h)), if_neg (not_not.2 h), opField_toNat, h16]
    split <;> simp_all
  · rw [if_pos (mt (rsvField_eq_zero d).1 h), if_pos h]

theorem encode_toNat (i : Instr) : (encode i).toNat = (opcode i).toNat := by cases i <;> decide

/-- The round trip: decoding an encoded command gives it back. -/
theorem decode_encode (i : Instr) : decode (encode i) = .ok i := by cases i <;> decide

/-- No two words decode to one command: a word that decodes to i is i's encoding. -/
theorem encode_of_decode {d : Word} {i : Instr} (h : decode d = .ok i) : encode i = d := by
  rw [decode_eq] at h
  apply BitVec.eq_of_toNat_eq
  split at h
  · cases h
  · repeat' split at h
    all_goals cases h
    all_goals simp_all [encode_toNat, opcode]

/-- The words the decoder accepts are the legal command words (R76, R77). -/
theorem decode_isOk_iff (d : Word) : (∃ i, decode d = .ok i) ↔ WellFormed.commandWord d := by
  rw [decode_eq]
  unfold WellFormed.commandWord WellFormed.reservedBitsClear WellFormed.opcodeAssigned
  constructor
  · rintro ⟨i, h⟩
    repeat' split at h
    all_goals cases h
    all_goals omega
  · rintro ⟨h, h1, h2⟩
    have h' : d.toNat % 16 = d.toNat := by omega
    repeat' split
    all_goals first | exact ⟨_, rfl⟩ | omega

theorem decodeTableWord_eq {nbits w : Nat} {i : Instr} (h : decodeTableWord nbits w = some i) :
    decode (BitVec.ofNat 32 (w % 2 ^ nbits)) = .ok i := by
  unfold decodeTableWord at h
  split at h
  · split at h
    · rename_i j hj; cases h; exact hj
    · cases h
  · cases h

end Sys2Proof
end

