-- ==== Sys2Proof/Laws/Memory.lean ====
section
/-! SUPPORT. The laws of a sparse buffer: what a read gives after a write, and that every operation keeps the canonical
form. -/

namespace Sys2Proof.Machine

variable {α : Type}

@[simp] theorem Memory.read_nil (a : Nat) : Memory.read ([] : Memory α) a = none := rfl

theorem Memory.read_cons (b : Nat) (v : α) (m : Memory α) (a : Nat) :
    Memory.read ((b, v) :: m) a = if a = b then some v else Memory.read m a := rfl

/-- A read after a write: the value written at its entry, the old value elsewhere. -/
theorem Memory.read_write (m : Memory α) (a b : Nat) (v : α) :
    Memory.read (Memory.write m a v) b = if b = a then some v else Memory.read m b := by
  induction m with
  | nil => simp [Memory.write, Memory.read]
  | cons c m ih =>
    obtain ⟨d, w⟩ := c
    simp only [Memory.write]
    split
    · simp [Memory.read_cons]
    · split
      · subst a; simp only [Memory.read_cons]; split <;> simp_all
      · simp only [Memory.read_cons, ih]; split <;> split <;> first | rfl | omega

@[simp] theorem Memory.read_write_same (m : Memory α) (a : Nat) (v : α) :
    Memory.read (Memory.write m a v) a = some v := by simp [Memory.read_write]

theorem Memory.read_write_other (m : Memory α) {a b : Nat} (v : α) (h : b ≠ a) :
    Memory.read (Memory.write m a v) b = Memory.read m b := by simp [Memory.read_write, h]

theorem Memory.read_append (m m' : Memory α) (a : Nat) :
    Memory.read (m ++ m') a = (Memory.read m a).or (Memory.read m' a) := by
  induction m with
  | nil => rfl
  | cons c m ih =>
    obtain ⟨b, v⟩ := c
    simp only [List.cons_append, Memory.read_cons, ih]; split <;> simp

theorem Memory.read_zipIdx (vs : List α) (i a : Nat) :
    Memory.read ((vs.zipIdx i).map fun p => (p.2, p.1)) a = if i ≤ a then vs[a - i]? else none := by
  induction vs generalizing i with
  | nil => simp
  | cons v vs ih =>
    simp only [List.zipIdx_cons, List.map_cons, Memory.read_cons, ih]
    by_cases h : a = i
    · subst a; simp
    · by_cases h' : i ≤ a
      · have h1 : i + 1 ≤ a := by omega
        have h2 : a - i = (a - (i + 1)) + 1 := by omega
        simp only [h, h1, h', if_true, if_false, h2, List.getElem?_cons_succ]
      · have h1 : ¬ i + 1 ≤ a := by omega
        simp [h, h1, h']

theorem Memory.read_filter (m : Memory α) (n a : Nat) :
    Memory.read (m.filter fun c => n ≤ c.1) a = if n ≤ a then Memory.read m a else none := by
  induction m with
  | nil => simp
  | cons c m ih =>
    obtain ⟨b, v⟩ := c
    simp only [List.filter_cons]
    split
    · rename_i hb
      have hb' : n ≤ b := by simpa using hb
      simp only [Memory.read_cons, ih]
      by_cases h : a = b
      · subst a; simp [hb']
      · simp [h]
    · rename_i hb
      have hb' : ¬ n ≤ b := by simpa using hb
      simp only [Memory.read_cons, ih]
      by_cases h : a = b
      · subst a; simp [hb']
      · simp [h]

/-- A read after `overwrite`: one of the new values below their number, the old value from there on. -/
theorem Memory.read_overwrite (vs : List α) (m : Memory α) (a : Nat) :
    Memory.read (Memory.overwrite vs m) a = if a < vs.length then vs[a]? else Memory.read m a := by
  simp only [Memory.overwrite, Memory.read_append, Memory.read_zipIdx, Memory.read_filter]
  by_cases h : a < vs.length
  · have h' : ¬ vs.length ≤ a := by omega
    simp [h]
  · have h' : vs.length ≤ a := by omega
    simp [h, h']

/-! ### The canonical form -/

theorem Memory.wf_nil (size : Nat) : Memory.wf size ([] : Memory α) := by simp [Memory.wf]

theorem Memory.mem_write {m : Memory α} {a : Nat} {v : α} {c : Nat × α} (h : c ∈ Memory.write m a v) :
    c = (a, v) ∨ c ∈ m := by
  induction m with
  | nil => simpa [Memory.write] using h
  | cons d m ih =>
    obtain ⟨b, w⟩ := d
    simp only [Memory.write] at h
    split at h
    · simpa using h
    · split at h
      · rcases List.mem_cons.1 h with h | h
        · exact .inl h
        · exact .inr (List.mem_cons_of_mem _ h)
      · rcases List.mem_cons.1 h with h | h
        · exact .inr (h ▸ List.mem_cons_self)
        · exact (ih h).imp_right (List.mem_cons_of_mem _)

/-- A write inside the buffer keeps the canonical form. -/
theorem Memory.wf_write {size : Nat} {m : Memory α} {a : Nat} (v : α) (ha : a < size) (hm : Memory.wf size m) :
    Memory.wf size (Memory.write m a v) := by
  refine ⟨?_, fun c hc => ?_⟩
  · obtain ⟨hp, -⟩ := hm
    induction m with
    | nil => simp [Memory.write]
    | cons d m ih =>
      obtain ⟨b, w⟩ := d
      simp only [List.map_cons, List.pairwise_cons] at hp
      simp only [Memory.write]
      split
      · rename_i hab
        simp only [List.map_cons, List.pairwise_cons]
        refine ⟨fun x hx => ?_, hp⟩
        rcases List.mem_cons.1 hx with rfl | hx
        · exact hab
        · exact lt_trans hab (hp.1 x hx)
      · split
        · rename_i hab; subst hab
          simpa only [List.map_cons, List.pairwise_cons] using hp
        · rename_i h1 h2
          simp only [List.map_cons, List.pairwise_cons]
          refine ⟨fun x hx => ?_, ih hp.2⟩
          obtain ⟨c, hc, rfl⟩ := List.mem_map.1 hx
          rcases Memory.mem_write hc with rfl | hc
          · show b < a; omega
          · exact hp.1 _ (List.mem_map_of_mem hc)
  · rcases Memory.mem_write hc with rfl | hc
    · exact ha
    · exact hm.2 c hc

/-- Overwriting the first entries with no more values than the buffer has entries keeps the canonical form. -/
theorem Memory.wf_overwrite {size : Nat} {vs : List α} {m : Memory α} (hv : vs.length ≤ size) (hm : Memory.wf size m) :
    Memory.wf size (Memory.overwrite vs m) := by
  have hkeys : ((vs.zipIdx.map fun p => (p.2, p.1)).map Prod.fst) = List.range vs.length := by
    rw [List.map_map]
    show vs.zipIdx.map Prod.snd = _
    rw [List.zipIdx_map_snd, List.range_eq_range']
  refine ⟨?_, fun c hc => ?_⟩
  · rw [Memory.overwrite, List.map_append, hkeys, List.pairwise_append]
    refine ⟨List.pairwise_lt_range, ?_, ?_⟩
    · exact hm.1.sublist (List.Sublist.map _ List.filter_sublist)
    · intro x hx y hy
      obtain ⟨c, hc, rfl⟩ := List.mem_map.1 hy
      have h1 := List.mem_range.1 hx
      have h2 : vs.length ≤ c.1 := by simpa using (List.mem_filter.1 hc).2
      omega
  · rcases List.mem_append.1 hc with hc | hc
    · have : c.1 ∈ List.range vs.length := hkeys ▸ List.mem_map_of_mem hc
      have := List.mem_range.1 this
      omega
    · exact hm.2 c (List.mem_filter.1 hc).1

end Sys2Proof.Machine
end

