-- ==== Sys2Proof/Laws/State.lean ====
section
/-! SUPPORT. One lemma per field per update of State, and one per reading operation an update leaves alone: no later proof
unfolds a record update. -/

namespace Sys2Proof.Machine

variable (s : State)

/-! ### accepting a command (R39) -/

@[simp] theorem accept_inBuf (op : Instr) : (accept op s).inBuf = s.inBuf := rfl
@[simp] theorem accept_wb (op : Instr) : (accept op s).wb = s.wb := rfl
@[simp] theorem accept_out (op : Instr) : (accept op s).out = s.out := rfl
@[simp] theorem accept_ctrl (op : Instr) : (accept op s).ctrl = s.ctrl := rfl
@[simp] theorem accept_done (op : Instr) : (accept op s).done = false := rfl
@[simp] theorem accept_err (op : Instr) : (accept op s).err = s.err := rfl
@[simp] theorem accept_range8 (op : Instr) : (accept op s).range8 = false := rfl
@[simp] theorem accept_errcode (op : Instr) : (accept op s).errcode = s.errcode := rfl
@[simp] theorem accept_phase (op : Instr) : (accept op s).phase = .busy op := rfl
@[simp] theorem accept_transpose (op : Instr) : (accept op s).transpose = s.transpose := rfl
@[simp] theorem accept_resets (op : Instr) : (accept op s).resets = s.resets := rfl
@[simp] theorem accept_host (op : Instr) : (accept op s).host = s.host := rfl
@[simp] theorem accept_sched (op : Instr) : (accept op s).sched = s.sched := rfl
@[simp] theorem accept_replies (op : Instr) : (accept op s).replies = s.replies := rfl
@[simp] theorem accept_inByte (op : Instr) (b : Nat) : inByte (accept op s) b = inByte s b := rfl
@[simp] theorem accept_wbEntry (op : Instr) (m : Nat) : wbEntry (accept op s) m = wbEntry s m := rfl
@[simp] theorem accept_wbInt (op : Instr) (p k : Nat) : wbInt (accept op s) p k = wbInt s p k := rfl
@[simp] theorem accept_outEntry (op : Instr) (m : Nat) : outEntry (accept op s) m = outEntry s m := rfl
@[simp] theorem accept_outInt (op : Instr) (p k : Nat) : outInt (accept op s) p k = outInt s p k := rfl
@[simp] theorem accept_chan1 (op : Instr) : chan1 (accept op s) = chan1 s := rfl
@[simp] theorem accept_qtab (op : Instr) : qtab (accept op s) = qtab s := rfl
@[simp] theorem accept_ieDone (op : Instr) : ieDone (accept op s) = ieDone s := rfl
@[simp] theorem accept_ieErr (op : Instr) : ieErr (accept op s) = ieErr s := rfl
@[simp] theorem accept_np (op : Instr) : np (accept op s) = np s := rfl

/-! ### completing a command (R40) -/

@[simp] theorem complete_inBuf (r : Bool) : (complete r s).inBuf = s.inBuf := rfl
@[simp] theorem complete_wb (r : Bool) : (complete r s).wb = s.wb := rfl
@[simp] theorem complete_out (r : Bool) : (complete r s).out = s.out := rfl
@[simp] theorem complete_ctrl (r : Bool) : (complete r s).ctrl = s.ctrl := rfl
@[simp] theorem complete_done (r : Bool) : (complete r s).done = true := rfl
@[simp] theorem complete_err (r : Bool) : (complete r s).err = s.err := rfl
@[simp] theorem complete_range8 (r : Bool) : (complete r s).range8 = r := rfl
@[simp] theorem complete_errcode (r : Bool) : (complete r s).errcode = s.errcode := rfl
@[simp] theorem complete_phase (r : Bool) : (complete r s).phase = .idle := rfl
@[simp] theorem complete_transpose (r : Bool) : (complete r s).transpose = s.transpose := rfl
@[simp] theorem complete_resets (r : Bool) : (complete r s).resets = s.resets := rfl
@[simp] theorem complete_host (r : Bool) : (complete r s).host = s.host := rfl
@[simp] theorem complete_sched (r : Bool) : (complete r s).sched = s.sched := rfl
@[simp] theorem complete_replies (r : Bool) : (complete r s).replies = s.replies := rfl
@[simp] theorem complete_inByte (r : Bool) (b : Nat) : inByte (complete r s) b = inByte s b := rfl
@[simp] theorem complete_wbEntry (r : Bool) (m : Nat) : wbEntry (complete r s) m = wbEntry s m := rfl
@[simp] theorem complete_wbInt (r : Bool) (p k : Nat) : wbInt (complete r s) p k = wbInt s p k := rfl
@[simp] theorem complete_outEntry (r : Bool) (m : Nat) : outEntry (complete r s) m = outEntry s m := rfl
@[simp] theorem complete_outInt (r : Bool) (p k : Nat) : outInt (complete r s) p k = outInt s p k := rfl
@[simp] theorem complete_chan1 (r : Bool) : chan1 (complete r s) = chan1 s := rfl
@[simp] theorem complete_qtab (r : Bool) : qtab (complete r s) = qtab s := rfl
@[simp] theorem complete_ieDone (r : Bool) : ieDone (complete r s) = ieDone s := rfl
@[simp] theorem complete_ieErr (r : Bool) : ieErr (complete r s) = ieErr s := rfl
@[simp] theorem complete_np (r : Bool) : np (complete r s) = np s := rfl

/-! ### a command error (R150) -/

@[simp] theorem raiseCmdError_inBuf (c : BitVec 4) : (raiseCmdError c s).inBuf = s.inBuf := rfl
@[simp] theorem raiseCmdError_wb (c : BitVec 4) : (raiseCmdError c s).wb = s.wb := rfl
@[simp] theorem raiseCmdError_out (c : BitVec 4) : (raiseCmdError c s).out = s.out := rfl
@[simp] theorem raiseCmdError_ctrl (c : BitVec 4) : (raiseCmdError c s).ctrl = s.ctrl := rfl
@[simp] theorem raiseCmdError_done (c : BitVec 4) : (raiseCmdError c s).done = s.done := rfl
@[simp] theorem raiseCmdError_err (c : BitVec 4) : (raiseCmdError c s).err = true := rfl
@[simp] theorem raiseCmdError_range8 (c : BitVec 4) : (raiseCmdError c s).range8 = s.range8 := rfl
@[simp] theorem raiseCmdError_errcode (c : BitVec 4) : (raiseCmdError c s).errcode = c := rfl
@[simp] theorem raiseCmdError_phase (c : BitVec 4) : (raiseCmdError c s).phase = s.phase := rfl
@[simp] theorem raiseCmdError_transpose (c : BitVec 4) : (raiseCmdError c s).transpose = s.transpose := rfl
@[simp] theorem raiseCmdError_resets (c : BitVec 4) : (raiseCmdError c s).resets = s.resets := rfl
@[simp] theorem raiseCmdError_host (c : BitVec 4) : (raiseCmdError c s).host = s.host := rfl
@[simp] theorem raiseCmdError_sched (c : BitVec 4) : (raiseCmdError c s).sched = s.sched := rfl
@[simp] theorem raiseCmdError_replies (c : BitVec 4) : (raiseCmdError c s).replies = s.replies := rfl
@[simp] theorem raiseCmdError_inByte (c : BitVec 4) (b : Nat) : inByte (raiseCmdError c s) b = inByte s b := rfl
@[simp] theorem raiseCmdError_wbEntry (c : BitVec 4) (m : Nat) : wbEntry (raiseCmdError c s) m = wbEntry s m := rfl
@[simp] theorem raiseCmdError_wbInt (c : BitVec 4) (p k : Nat) : wbInt (raiseCmdError c s) p k = wbInt s p k := rfl
@[simp] theorem raiseCmdError_outEntry (c : BitVec 4) (m : Nat) : outEntry (raiseCmdError c s) m = outEntry s m := rfl
@[simp] theorem raiseCmdError_outInt (c : BitVec 4) (p k : Nat) : outInt (raiseCmdError c s) p k = outInt s p k := rfl
@[simp] theorem raiseCmdError_chan1 (c : BitVec 4) : chan1 (raiseCmdError c s) = chan1 s := rfl
@[simp] theorem raiseCmdError_qtab (c : BitVec 4) : qtab (raiseCmdError c s) = qtab s := rfl
@[simp] theorem raiseCmdError_ieDone (c : BitVec 4) : ieDone (raiseCmdError c s) = ieDone s := rfl
@[simp] theorem raiseCmdError_ieErr (c : BitVec 4) : ieErr (raiseCmdError c s) = ieErr s := rfl
@[simp] theorem raiseCmdError_np (c : BitVec 4) : np (raiseCmdError c s) = np s := rfl
@[simp] theorem raiseCmdError_busy (c : BitVec 4) : busy (raiseCmdError c s) = busy s := rfl

/-! ### a write to STATUS (R33) -/

@[simp] theorem clearFlags_inBuf (d : Word) : (clearFlags d s).inBuf = s.inBuf := rfl
@[simp] theorem clearFlags_wb (d : Word) : (clearFlags d s).wb = s.wb := rfl
@[simp] theorem clearFlags_out (d : Word) : (clearFlags d s).out = s.out := rfl
@[simp] theorem clearFlags_ctrl (d : Word) : (clearFlags d s).ctrl = s.ctrl := rfl
@[simp] theorem clearFlags_done (d : Word) : (clearFlags d s).done = (s.done && !d.getLsbD 1) := rfl
@[simp] theorem clearFlags_err (d : Word) : (clearFlags d s).err = (s.err && !d.getLsbD 2) := rfl
@[simp] theorem clearFlags_range8 (d : Word) : (clearFlags d s).range8 = (s.range8 && !d.getLsbD 3) := rfl
@[simp] theorem clearFlags_errcode (d : Word) : (clearFlags d s).errcode = (if d.getLsbD 2 then 0 else s.errcode) := rfl
@[simp] theorem clearFlags_phase (d : Word) : (clearFlags d s).phase = s.phase := rfl
@[simp] theorem clearFlags_transpose (d : Word) : (clearFlags d s).transpose = s.transpose := rfl
@[simp] theorem clearFlags_resets (d : Word) : (clearFlags d s).resets = s.resets := rfl
@[simp] theorem clearFlags_host (d : Word) : (clearFlags d s).host = s.host := rfl
@[simp] theorem clearFlags_sched (d : Word) : (clearFlags d s).sched = s.sched := rfl
@[simp] theorem clearFlags_replies (d : Word) : (clearFlags d s).replies = s.replies := rfl
@[simp] theorem clearFlags_inByte (d : Word) (b : Nat) : inByte (clearFlags d s) b = inByte s b := rfl
@[simp] theorem clearFlags_wbEntry (d : Word) (m : Nat) : wbEntry (clearFlags d s) m = wbEntry s m := rfl
@[simp] theorem clearFlags_wbInt (d : Word) (p k : Nat) : wbInt (clearFlags d s) p k = wbInt s p k := rfl
@[simp] theorem clearFlags_outEntry (d : Word) (m : Nat) : outEntry (clearFlags d s) m = outEntry s m := rfl
@[simp] theorem clearFlags_outInt (d : Word) (p k : Nat) : outInt (clearFlags d s) p k = outInt s p k := rfl
@[simp] theorem clearFlags_chan1 (d : Word) : chan1 (clearFlags d s) = chan1 s := rfl
@[simp] theorem clearFlags_qtab (d : Word) : qtab (clearFlags d s) = qtab s := rfl
@[simp] theorem clearFlags_ieDone (d : Word) : ieDone (clearFlags d s) = ieDone s := rfl
@[simp] theorem clearFlags_ieErr (d : Word) : ieErr (clearFlags d s) = ieErr s := rfl
@[simp] theorem clearFlags_np (d : Word) : np (clearFlags d s) = np s := rfl
@[simp] theorem clearFlags_busy (d : Word) : busy (clearFlags d s) = busy s := rfl

/-! ### a write to CTRL (R61) -/

@[simp] theorem writeCtrl_inBuf (d : Word) : (writeCtrl d s).inBuf = s.inBuf := rfl
@[simp] theorem writeCtrl_wb (d : Word) : (writeCtrl d s).wb = s.wb := rfl
@[simp] theorem writeCtrl_out (d : Word) : (writeCtrl d s).out = s.out := rfl
@[simp] theorem writeCtrl_ctrl (d : Word) : (writeCtrl d s).ctrl = (d &&& 0x00000303#32) := rfl
@[simp] theorem writeCtrl_done (d : Word) : (writeCtrl d s).done = s.done := rfl
@[simp] theorem writeCtrl_err (d : Word) : (writeCtrl d s).err = s.err := rfl
@[simp] theorem writeCtrl_range8 (d : Word) : (writeCtrl d s).range8 = s.range8 := rfl
@[simp] theorem writeCtrl_errcode (d : Word) : (writeCtrl d s).errcode = s.errcode := rfl
@[simp] theorem writeCtrl_phase (d : Word) : (writeCtrl d s).phase = s.phase := rfl
@[simp] theorem writeCtrl_transpose (d : Word) : (writeCtrl d s).transpose = s.transpose := rfl
@[simp] theorem writeCtrl_resets (d : Word) : (writeCtrl d s).resets = s.resets := rfl
@[simp] theorem writeCtrl_host (d : Word) : (writeCtrl d s).host = s.host := rfl
@[simp] theorem writeCtrl_sched (d : Word) : (writeCtrl d s).sched = s.sched := rfl
@[simp] theorem writeCtrl_replies (d : Word) : (writeCtrl d s).replies = s.replies := rfl
@[simp] theorem writeCtrl_inByte (d : Word) (b : Nat) : inByte (writeCtrl d s) b = inByte s b := rfl
@[simp] theorem writeCtrl_wbEntry (d : Word) (m : Nat) : wbEntry (writeCtrl d s) m = wbEntry s m := rfl
@[simp] theorem writeCtrl_wbInt (d : Word) (p k : Nat) : wbInt (writeCtrl d s) p k = wbInt s p k := rfl
@[simp] theorem writeCtrl_outEntry (d : Word) (m : Nat) : outEntry (writeCtrl d s) m = outEntry s m := rfl
@[simp] theorem writeCtrl_outInt (d : Word) (p k : Nat) : outInt (writeCtrl d s) p k = outInt s p k := rfl
@[simp] theorem writeCtrl_busy (d : Word) : busy (writeCtrl d s) = busy s := rfl

/-! ### a write of an IN word (R57) -/

@[simp] theorem writeIn_wb (w : Nat) (d : Word) : (writeIn w d s).wb = s.wb := rfl
@[simp] theorem writeIn_out (w : Nat) (d : Word) : (writeIn w d s).out = s.out := rfl
@[simp] theorem writeIn_ctrl (w : Nat) (d : Word) : (writeIn w d s).ctrl = s.ctrl := rfl
@[simp] theorem writeIn_done (w : Nat) (d : Word) : (writeIn w d s).done = s.done := rfl
@[simp] theorem writeIn_err (w : Nat) (d : Word) : (writeIn w d s).err = s.err := rfl
@[simp] theorem writeIn_range8 (w : Nat) (d : Word) : (writeIn w d s).range8 = s.range8 := rfl
@[simp] theorem writeIn_errcode (w : Nat) (d : Word) : (writeIn w d s).errcode = s.errcode := rfl
@[simp] theorem writeIn_phase (w : Nat) (d : Word) : (writeIn w d s).phase = s.phase := rfl
@[simp] theorem writeIn_transpose (w : Nat) (d : Word) : (writeIn w d s).transpose = s.transpose := rfl
@[simp] theorem writeIn_resets (w : Nat) (d : Word) : (writeIn w d s).resets = s.resets := rfl
@[simp] theorem writeIn_host (w : Nat) (d : Word) : (writeIn w d s).host = s.host := rfl
@[simp] theorem writeIn_sched (w : Nat) (d : Word) : (writeIn w d s).sched = s.sched := rfl
@[simp] theorem writeIn_replies (w : Nat) (d : Word) : (writeIn w d s).replies = s.replies := rfl
@[simp] theorem writeIn_wbEntry (w : Nat) (d : Word) (m : Nat) : wbEntry (writeIn w d s) m = wbEntry s m := rfl
@[simp] theorem writeIn_wbInt (w : Nat) (d : Word) (p k : Nat) : wbInt (writeIn w d s) p k = wbInt s p k := rfl
@[simp] theorem writeIn_outEntry (w : Nat) (d : Word) (m : Nat) : outEntry (writeIn w d s) m = outEntry s m := rfl
@[simp] theorem writeIn_outInt (w : Nat) (d : Word) (p k : Nat) : outInt (writeIn w d s) p k = outInt s p k := rfl
@[simp] theorem writeIn_chan1 (w : Nat) (d : Word) : chan1 (writeIn w d s) = chan1 s := rfl
@[simp] theorem writeIn_qtab (w : Nat) (d : Word) : qtab (writeIn w d s) = qtab s := rfl
@[simp] theorem writeIn_ieDone (w : Nat) (d : Word) : ieDone (writeIn w d s) = ieDone s := rfl
@[simp] theorem writeIn_ieErr (w : Nat) (d : Word) : ieErr (writeIn w d s) = ieErr s := rfl
@[simp] theorem writeIn_np (w : Nat) (d : Word) : np (writeIn w d s) = np s := rfl
@[simp] theorem writeIn_busy (w : Nat) (d : Word) : busy (writeIn w d s) = busy s := rfl

/-! ### a write of a WB entry (R58) -/

@[simp] theorem writeWb_inBuf (n : Nat) (d : Word) : (writeWb n d s).inBuf = s.inBuf := rfl
@[simp] theorem writeWb_wb (n : Nat) (d : Word) : (writeWb n d s).wb = Memory.write s.wb n d := rfl
@[simp] theorem writeWb_out (n : Nat) (d : Word) : (writeWb n d s).out = s.out := rfl
@[simp] theorem writeWb_ctrl (n : Nat) (d : Word) : (writeWb n d s).ctrl = s.ctrl := rfl
@[simp] theorem writeWb_done (n : Nat) (d : Word) : (writeWb n d s).done = s.done := rfl
@[simp] theorem writeWb_err (n : Nat) (d : Word) : (writeWb n d s).err = s.err := rfl
@[simp] theorem writeWb_range8 (n : Nat) (d : Word) : (writeWb n d s).range8 = s.range8 := rfl
@[simp] theorem writeWb_errcode (n : Nat) (d : Word) : (writeWb n d s).errcode = s.errcode := rfl
@[simp] theorem writeWb_phase (n : Nat) (d : Word) : (writeWb n d s).phase = s.phase := rfl
@[simp] theorem writeWb_transpose (n : Nat) (d : Word) : (writeWb n d s).transpose = s.transpose := rfl
@[simp] theorem writeWb_resets (n : Nat) (d : Word) : (writeWb n d s).resets = s.resets := rfl
@[simp] theorem writeWb_host (n : Nat) (d : Word) : (writeWb n d s).host = s.host := rfl
@[simp] theorem writeWb_sched (n : Nat) (d : Word) : (writeWb n d s).sched = s.sched := rfl
@[simp] theorem writeWb_replies (n : Nat) (d : Word) : (writeWb n d s).replies = s.replies := rfl
@[simp] theorem writeWb_inByte (n : Nat) (d : Word) (b : Nat) : inByte (writeWb n d s) b = inByte s b := rfl
@[simp] theorem writeWb_outEntry (n : Nat) (d : Word) (m : Nat) : outEntry (writeWb n d s) m = outEntry s m := rfl
@[simp] theorem writeWb_outInt (n : Nat) (d : Word) (p k : Nat) : outInt (writeWb n d s) p k = outInt s p k := rfl
@[simp] theorem writeWb_chan1 (n : Nat) (d : Word) : chan1 (writeWb n d s) = chan1 s := rfl
@[simp] theorem writeWb_qtab (n : Nat) (d : Word) : qtab (writeWb n d s) = qtab s := rfl
@[simp] theorem writeWb_ieDone (n : Nat) (d : Word) : ieDone (writeWb n d s) = ieDone s := rfl
@[simp] theorem writeWb_ieErr (n : Nat) (d : Word) : ieErr (writeWb n d s) = ieErr s := rfl
@[simp] theorem writeWb_np (n : Nat) (d : Word) : np (writeWb n d s) = np s := rfl
@[simp] theorem writeWb_busy (n : Nat) (d : Word) : busy (writeWb n d s) = busy s := rfl

/-! ### noting the port's answer (R83) -/

@[simp] theorem noteReply_inBuf (r : Reply) (rest : List HostLine) : (noteReply r rest s).inBuf = s.inBuf := rfl
@[simp] theorem noteReply_wb (r : Reply) (rest : List HostLine) : (noteReply r rest s).wb = s.wb := rfl
@[simp] theorem noteReply_out (r : Reply) (rest : List HostLine) : (noteReply r rest s).out = s.out := rfl
@[simp] theorem noteReply_ctrl (r : Reply) (rest : List HostLine) : (noteReply r rest s).ctrl = s.ctrl := rfl
@[simp] theorem noteReply_done (r : Reply) (rest : List HostLine) : (noteReply r rest s).done = s.done := rfl
@[simp] theorem noteReply_err (r : Reply) (rest : List HostLine) : (noteReply r rest s).err = s.err := rfl
@[simp] theorem noteReply_range8 (r : Reply) (rest : List HostLine) : (noteReply r rest s).range8 = s.range8 := rfl
@[simp] theorem noteReply_errcode (r : Reply) (rest : List HostLine) : (noteReply r rest s).errcode = s.errcode := rfl
@[simp] theorem noteReply_phase (r : Reply) (rest : List HostLine) : (noteReply r rest s).phase = s.phase := rfl
@[simp] theorem noteReply_transpose (r : Reply) (rest : List HostLine) : (noteReply r rest s).transpose = s.transpose := rfl
@[simp] theorem noteReply_resets (r : Reply) (rest : List HostLine) : (noteReply r rest s).resets = s.resets := rfl
@[simp] theorem noteReply_host (r : Reply) (rest : List HostLine) : (noteReply r rest s).host = rest := rfl
@[simp] theorem noteReply_sched (r : Reply) (rest : List HostLine) : (noteReply r rest s).sched = s.sched := rfl
@[simp] theorem noteReply_replies (r : Reply) (rest : List HostLine) : (noteReply r rest s).replies = r :: s.replies := rfl
@[simp] theorem noteReply_inByte (r : Reply) (rest : List HostLine) (b : Nat) : inByte (noteReply r rest s) b = inByte s b := rfl
@[simp] theorem noteReply_wbEntry (r : Reply) (rest : List HostLine) (m : Nat) : wbEntry (noteReply r rest s) m = wbEntry s m := rfl
@[simp] theorem noteReply_wbInt (r : Reply) (rest : List HostLine) (p k : Nat) : wbInt (noteReply r rest s) p k = wbInt s p k := rfl
@[simp] theorem noteReply_outEntry (r : Reply) (rest : List HostLine) (m : Nat) : outEntry (noteReply r rest s) m = outEntry s m := rfl
@[simp] theorem noteReply_outInt (r : Reply) (rest : List HostLine) (p k : Nat) : outInt (noteReply r rest s) p k = outInt s p k := rfl
@[simp] theorem noteReply_chan1 (r : Reply) (rest : List HostLine) : chan1 (noteReply r rest s) = chan1 s := rfl
@[simp] theorem noteReply_qtab (r : Reply) (rest : List HostLine) : qtab (noteReply r rest s) = qtab s := rfl
@[simp] theorem noteReply_ieDone (r : Reply) (rest : List HostLine) : ieDone (noteReply r rest s) = ieDone s := rfl
@[simp] theorem noteReply_ieErr (r : Reply) (rest : List HostLine) : ieErr (noteReply r rest s) = ieErr s := rfl
@[simp] theorem noteReply_np (r : Reply) (rest : List HostLine) : np (noteReply r rest s) = np s := rfl
@[simp] theorem noteReply_busy (r : Reply) (rest : List HostLine) : busy (noteReply r rest s) = busy s := rfl

/-! ### taking a turn (R67) -/

@[simp] theorem dropTurn_inBuf : (dropTurn s).inBuf = s.inBuf := rfl
@[simp] theorem dropTurn_wb : (dropTurn s).wb = s.wb := rfl
@[simp] theorem dropTurn_out : (dropTurn s).out = s.out := rfl
@[simp] theorem dropTurn_ctrl : (dropTurn s).ctrl = s.ctrl := rfl
@[simp] theorem dropTurn_done : (dropTurn s).done = s.done := rfl
@[simp] theorem dropTurn_err : (dropTurn s).err = s.err := rfl
@[simp] theorem dropTurn_range8 : (dropTurn s).range8 = s.range8 := rfl
@[simp] theorem dropTurn_errcode : (dropTurn s).errcode = s.errcode := rfl
@[simp] theorem dropTurn_phase : (dropTurn s).phase = s.phase := rfl
@[simp] theorem dropTurn_transpose : (dropTurn s).transpose = s.transpose := rfl
@[simp] theorem dropTurn_resets : (dropTurn s).resets = s.resets := rfl
@[simp] theorem dropTurn_host : (dropTurn s).host = s.host := rfl
@[simp] theorem dropTurn_sched : (dropTurn s).sched = s.sched.tail := rfl
@[simp] theorem dropTurn_replies : (dropTurn s).replies = s.replies := rfl
@[simp] theorem dropTurn_inByte (b : Nat) : inByte (dropTurn s) b = inByte s b := rfl
@[simp] theorem dropTurn_wbEntry (m : Nat) : wbEntry (dropTurn s) m = wbEntry s m := rfl
@[simp] theorem dropTurn_wbInt (p k : Nat) : wbInt (dropTurn s) p k = wbInt s p k := rfl
@[simp] theorem dropTurn_outEntry (m : Nat) : outEntry (dropTurn s) m = outEntry s m := rfl
@[simp] theorem dropTurn_outInt (p k : Nat) : outInt (dropTurn s) p k = outInt s p k := rfl
@[simp] theorem dropTurn_chan1 : chan1 (dropTurn s) = chan1 s := rfl
@[simp] theorem dropTurn_qtab : qtab (dropTurn s) = qtab s := rfl
@[simp] theorem dropTurn_ieDone : ieDone (dropTurn s) = ieDone s := rfl
@[simp] theorem dropTurn_ieErr : ieErr (dropTurn s) = ieErr s := rfl
@[simp] theorem dropTurn_np : np (dropTurn s) = np s := rfl
@[simp] theorem dropTurn_busy : busy (dropTurn s) = busy s := rfl

/-! ### reset (R170) -/

@[simp] theorem applyReset_inBuf : (applyReset s).inBuf = [] := rfl
@[simp] theorem applyReset_wb : (applyReset s).wb = [] := rfl
@[simp] theorem applyReset_out : (applyReset s).out = [] := rfl
@[simp] theorem applyReset_ctrl : (applyReset s).ctrl = 0 := rfl
@[simp] theorem applyReset_done : (applyReset s).done = false := rfl
@[simp] theorem applyReset_err : (applyReset s).err = false := rfl
@[simp] theorem applyReset_range8 : (applyReset s).range8 = false := rfl
@[simp] theorem applyReset_errcode : (applyReset s).errcode = 0 := rfl
@[simp] theorem applyReset_phase : (applyReset s).phase = .idle := rfl
@[simp] theorem applyReset_transpose : (applyReset s).transpose = [] := rfl
@[simp] theorem applyReset_resets : (applyReset s).resets = s.resets + 1 := rfl
@[simp] theorem applyReset_host : (applyReset s).host = s.host := rfl
@[simp] theorem applyReset_sched : (applyReset s).sched = s.sched := rfl
@[simp] theorem applyReset_replies : (applyReset s).replies = s.replies := rfl

/-! ### perform(CSC) (R90) -/

@[simp] theorem performCsc_inBuf : (performCsc s).inBuf = s.inBuf := rfl
@[simp] theorem performCsc_out : (performCsc s).out = s.out := rfl
@[simp] theorem performCsc_ctrl : (performCsc s).ctrl = s.ctrl := rfl
@[simp] theorem performCsc_done : (performCsc s).done = s.done := rfl
@[simp] theorem performCsc_err : (performCsc s).err = s.err := rfl
@[simp] theorem performCsc_range8 : (performCsc s).range8 = s.range8 := rfl
@[simp] theorem performCsc_errcode : (performCsc s).errcode = s.errcode := rfl
@[simp] theorem performCsc_phase : (performCsc s).phase = s.phase := rfl
@[simp] theorem performCsc_transpose : (performCsc s).transpose = s.transpose := rfl
@[simp] theorem performCsc_resets : (performCsc s).resets = s.resets := rfl
@[simp] theorem performCsc_host : (performCsc s).host = s.host := rfl
@[simp] theorem performCsc_sched : (performCsc s).sched = s.sched := rfl
@[simp] theorem performCsc_replies : (performCsc s).replies = s.replies := rfl
@[simp] theorem performCsc_inByte (b : Nat) : inByte (performCsc s) b = inByte s b := rfl
@[simp] theorem performCsc_outEntry (m : Nat) : outEntry (performCsc s) m = outEntry s m := rfl
@[simp] theorem performCsc_outInt (p k : Nat) : outInt (performCsc s) p k = outInt s p k := rfl
@[simp] theorem performCsc_chan1 : chan1 (performCsc s) = chan1 s := rfl
@[simp] theorem performCsc_qtab : qtab (performCsc s) = qtab s := rfl
@[simp] theorem performCsc_ieDone : ieDone (performCsc s) = ieDone s := rfl
@[simp] theorem performCsc_ieErr : ieErr (performCsc s) = ieErr s := rfl
@[simp] theorem performCsc_np : np (performCsc s) = np s := rfl
@[simp] theorem performCsc_busy : busy (performCsc s) = busy s := rfl

/-! ### perform(LSH) (R97) -/

@[simp] theorem performLsh_inBuf : (performLsh s).inBuf = s.inBuf := rfl
@[simp] theorem performLsh_out : (performLsh s).out = s.out := rfl
@[simp] theorem performLsh_ctrl : (performLsh s).ctrl = s.ctrl := rfl
@[simp] theorem performLsh_done : (performLsh s).done = s.done := rfl
@[simp] theorem performLsh_err : (performLsh s).err = s.err := rfl
@[simp] theorem performLsh_range8 : (performLsh s).range8 = s.range8 := rfl
@[simp] theorem performLsh_errcode : (performLsh s).errcode = s.errcode := rfl
@[simp] theorem performLsh_phase : (performLsh s).phase = s.phase := rfl
@[simp] theorem performLsh_transpose : (performLsh s).transpose = s.transpose := rfl
@[simp] theorem performLsh_resets : (performLsh s).resets = s.resets := rfl
@[simp] theorem performLsh_host : (performLsh s).host = s.host := rfl
@[simp] theorem performLsh_sched : (performLsh s).sched = s.sched := rfl
@[simp] theorem performLsh_replies : (performLsh s).replies = s.replies := rfl
@[simp] theorem performLsh_inByte (b : Nat) : inByte (performLsh s) b = inByte s b := rfl
@[simp] theorem performLsh_outEntry (m : Nat) : outEntry (performLsh s) m = outEntry s m := rfl
@[simp] theorem performLsh_outInt (p k : Nat) : outInt (performLsh s) p k = outInt s p k := rfl
@[simp] theorem performLsh_chan1 : chan1 (performLsh s) = chan1 s := rfl
@[simp] theorem performLsh_qtab : qtab (performLsh s) = qtab s := rfl
@[simp] theorem performLsh_ieDone : ieDone (performLsh s) = ieDone s := rfl
@[simp] theorem performLsh_ieErr : ieErr (performLsh s) = ieErr s := rfl
@[simp] theorem performLsh_np : np (performLsh s) = np s := rfl
@[simp] theorem performLsh_busy : busy (performLsh s) = busy s := rfl

/-! ### perform(DCT) (R105) -/

@[simp] theorem performDct_inBuf : (performDct s).inBuf = s.inBuf := rfl
@[simp] theorem performDct_out : (performDct s).out = s.out := rfl
@[simp] theorem performDct_ctrl : (performDct s).ctrl = s.ctrl := rfl
@[simp] theorem performDct_done : (performDct s).done = s.done := rfl
@[simp] theorem performDct_err : (performDct s).err = s.err := rfl
@[simp] theorem performDct_range8 : (performDct s).range8 = s.range8 := rfl
@[simp] theorem performDct_errcode : (performDct s).errcode = s.errcode := rfl
@[simp] theorem performDct_phase : (performDct s).phase = s.phase := rfl
@[simp] theorem performDct_transpose : (performDct s).transpose = rowPass (wbPlane s (np s - 1)) := rfl
@[simp] theorem performDct_resets : (performDct s).resets = s.resets := rfl
@[simp] theorem performDct_host : (performDct s).host = s.host := rfl
@[simp] theorem performDct_sched : (performDct s).sched = s.sched := rfl
@[simp] theorem performDct_replies : (performDct s).replies = s.replies := rfl
@[simp] theorem performDct_inByte (b : Nat) : inByte (performDct s) b = inByte s b := rfl
@[simp] theorem performDct_outEntry (m : Nat) : outEntry (performDct s) m = outEntry s m := rfl
@[simp] theorem performDct_outInt (p k : Nat) : outInt (performDct s) p k = outInt s p k := rfl
@[simp] theorem performDct_chan1 : chan1 (performDct s) = chan1 s := rfl
@[simp] theorem performDct_qtab : qtab (performDct s) = qtab s := rfl
@[simp] theorem performDct_ieDone : ieDone (performDct s) = ieDone s := rfl
@[simp] theorem performDct_ieErr : ieErr (performDct s) = ieErr s := rfl
@[simp] theorem performDct_np : np (performDct s) = np s := rfl
@[simp] theorem performDct_busy : busy (performDct s) = busy s := rfl

/-! ### perform(QNT) (R120) -/

@[simp] theorem performQnt_inBuf : (performQnt s).inBuf = s.inBuf := rfl
@[simp] theorem performQnt_wb : (performQnt s).wb = s.wb := rfl
@[simp] theorem performQnt_ctrl : (performQnt s).ctrl = s.ctrl := rfl
@[simp] theorem performQnt_done : (performQnt s).done = s.done := rfl
@[simp] theorem performQnt_err : (performQnt s).err = s.err := rfl
@[simp] theorem performQnt_range8 : (performQnt s).range8 = s.range8 := rfl
@[simp] theorem performQnt_errcode : (performQnt s).errcode = s.errcode := rfl
@[simp] theorem performQnt_phase : (performQnt s).phase = s.phase := rfl
@[simp] theorem performQnt_transpose : (performQnt s).transpose = s.transpose := rfl
@[simp] theorem performQnt_resets : (performQnt s).resets = s.resets := rfl
@[simp] theorem performQnt_host : (performQnt s).host = s.host := rfl
@[simp] theorem performQnt_sched : (performQnt s).sched = s.sched := rfl
@[simp] theorem performQnt_replies : (performQnt s).replies = s.replies := rfl
@[simp] theorem performQnt_inByte (b : Nat) : inByte (performQnt s) b = inByte s b := rfl
@[simp] theorem performQnt_wbEntry (m : Nat) : wbEntry (performQnt s) m = wbEntry s m := rfl
@[simp] theorem performQnt_wbInt (p k : Nat) : wbInt (performQnt s) p k = wbInt s p k := rfl
@[simp] theorem performQnt_chan1 : chan1 (performQnt s) = chan1 s := rfl
@[simp] theorem performQnt_qtab : qtab (performQnt s) = qtab s := rfl
@[simp] theorem performQnt_ieDone : ieDone (performQnt s) = ieDone s := rfl
@[simp] theorem performQnt_ieErr : ieErr (performQnt s) = ieErr s := rfl
@[simp] theorem performQnt_np : np (performQnt s) = np s := rfl
@[simp] theorem performQnt_busy : busy (performQnt s) = busy s := rfl

end Sys2Proof.Machine
end

