-- ==== Sys2Proof/Laws/Ops.lean ====
section
/-! SUPPORT. What each shared operation can do, said once: the loops over planes and positions, the four stages' results, the
checks of a transaction, its outcomes. -/

namespace Sys2Proof.Machine

/-! ### The loops (R16) -/

@[simp] theorem overPositions_length {α : Type} (f : Nat → α) : (overPositions f).length = 64 := by simp [overPositions]

theorem overPositions_getElem? {α : Type} (f : Nat → α) {k : Nat} (hk : k < 64) :
    (overPositions f)[k]? = some (f k) := by simp [overPositions, hk]

theorem overPositions_getD (f : Nat → Int) {k : Nat} (hk : k < 64) : (overPositions f).getD k 0 = f k := by
  simp [overPositions, hk]

theorem flatMap_planes_length {α : Type} (plane : Nat → List α) (hp : ∀ c, (plane c).length = 64) (n : Nat) :
    ((List.range n).flatMap plane).length = 64 * n := by
  induction n with
  | zero => simp
  | succ n ih => rw [List.range_succ, List.flatMap_append, List.length_append, ih]; simp [hp]; omega

theorem flatMap_planes_getElem? {α : Type} (plane : Nat → List α) (hp : ∀ c, (plane c).length = 64) (n : Nat)
    {c k : Nat} (hk : k < 64) :
    ((List.range n).flatMap plane)[64 * c + k]? = if c < n then (plane c)[k]? else none := by
  induction n with
  | zero => simp
  | succ n ih =>
    rw [List.range_succ, List.flatMap_append, List.getElem?_append, flatMap_planes_length plane hp]
    by_cases h : c < n
    · rw [if_pos (by omega), ih, if_pos h, if_pos (by omega)]
    · rw [if_neg (by omega)]
      by_cases h' : c = n
      · subst h'
        rw [if_pos (by omega), show 64 * c + k - 64 * c = k by omega]
        simp
      · rw [if_neg (by omega), List.getElem?_eq_none]
        simp only [List.flatMap_cons, List.flatMap_nil, List.append_nil, hp]; omega

theorem np_eq (s : State) : np s = 1 ∨ np s = 3 := by unfold np; split <;> simp

theorem np_pos (s : State) : 0 < np s := by rcases np_eq s with h | h <;> omega

theorem overPlanes_length {α : Type} (s : State) (plane : Nat → List α) (hp : ∀ c, (plane c).length = 64) :
    (overPlanes s plane).length = 64 * np s := flatMap_planes_length plane hp _

theorem overPlanes_getElem? {α : Type} (s : State) (plane : Nat → List α) (hp : ∀ c, (plane c).length = 64) {c k : Nat}
    (hk : k < 64) : (overPlanes s plane)[64 * c + k]? = if c < np s then (plane c)[k]? else none :=
  flatMap_planes_getElem? plane hp _ hk

/-- A member of a loop's result is the value of some processed plane and position. -/
theorem mem_overPlanes {α : Type} (s : State) (f : Nat → Nat → α) (x : α) :
    x ∈ overPlanes s (fun c => overPositions (f c)) ↔ ∃ c < np s, ∃ k < 64, f c k = x := by
  simp [overPlanes, overPositions]

/-- A buffer whose first NP planes a command overwrites: the new values there, the old ones elsewhere (R174). -/
theorem read_overwrite_planes {α : Type} (s : State) (plane : Nat → List α) (hp : ∀ c, (plane c).length = 64)
    (m : Memory α) {c k : Nat} (hk : k < 64) :
    Memory.read (Memory.overwrite (overPlanes s plane) m) (64 * c + k) =
      if c < np s then (plane c)[k]? else Memory.read m (64 * c + k) := by
  rw [Memory.read_overwrite, overPlanes_length s plane hp, overPlanes_getElem? s plane hp hk]
  by_cases h : c < np s
  · rw [if_pos (by omega), if_pos h, if_pos h]
  · rw [if_neg (by omega), if_neg h]

theorem read_overwrite_planes_ge {α : Type} (s : State) (plane : Nat → List α) (hp : ∀ c, (plane c).length = 64)
    (m : Memory α) {n : Nat} (hn : 64 * np s ≤ n) :
    Memory.read (Memory.overwrite (overPlanes s plane) m) n = Memory.read m n := by
  rw [Memory.read_overwrite, overPlanes_length s plane hp, if_neg (by omega)]

theorem wbPlane_getD (s : State) (c : Nat) {k : Nat} (hk : k < 64) : (wbPlane s c).getD k 0 = wbInt s c k :=
  overPositions_getD _ hk

@[simp] theorem rowPass_length (S : List Int) : (rowPass S).length = 64 := by simp [rowPass]

@[simp] theorem dctPlane_length (S : List Int) : (dctPlane S).length = 64 := by simp [dctPlane, colPass]

/-! ### The four stages -/

/-- What CSC leaves in WB (R90, R92). -/
theorem wbInt_performCsc (s : State) (c : Nat) {k : Nat} (hk : k < 64) :
    wbInt (performCsc s) c k = if c < np s then wrap32 (cscValue s c k) else wbInt s c k := by
  simp only [wbInt, wbEntry, performCsc]
  rw [read_overwrite_planes s _ (by simp) _ hk]
  split <;> simp [overPositions_getElem? _ hk]

/-- What LSH leaves in WB (R97). -/
theorem wbInt_performLsh (s : State) (c : Nat) {k : Nat} (hk : k < 64) :
    wbInt (performLsh s) c k = if c < np s then wrap32 (wbInt s c k - 1280000) else wbInt s c k := by
  simp only [wbInt, wbEntry, performLsh]
  rw [read_overwrite_planes s _ (by simp) _ hk]
  split <;> simp [overPositions_getElem? _ hk]

/-- What DCT leaves in WB (R105). -/
theorem wbInt_performDct (s : State) (c : Nat) {k : Nat} (hk : k < 64) :
    wbInt (performDct s) c k =
      if c < np s then wrap32 ((dctPlane (wbPlane s c)).getD k 0) else wbInt s c k := by
  simp only [wbInt, wbEntry, performDct]
  rw [read_overwrite_planes s _ (by simp) _ hk]
  split
  · have : k < (dctPlane (wbPlane s c)).length := by simpa using hk
    simp [List.getElem?_map, List.getElem?_eq_getElem this]
  · rfl

theorem qntValues_length (s : State) : (qntValues s).length = 64 * np s := overPlanes_length s _ (by simp)

/-- What QNT leaves in OUT, as stored (R120). -/
theorem outInt_performQnt (s : State) (c : Nat) {k : Nat} (hk : k < 64) :
    outInt (performQnt s) c k =
      if c < np s then (BitVec.ofInt 16 (qntValue s c k)).toInt else outInt s c k := by
  simp only [outInt, outEntry, performQnt]
  rw [Memory.read_overwrite, List.length_map, qntValues_length]
  by_cases h : c < np s
  · rw [if_pos (by omega), if_pos h, List.getElem?_map, qntValues, overPlanes_getElem? s _ (by simp) hk, if_pos h,
      overPositions_getElem? _ hk]
    rfl
  · rw [if_neg (by omega), if_neg h]

/-- When QNT sets RANGE8 (R32, R124). -/
theorem qntRange8_iff (s : State) :
    qntRange8 s = true ↔ ∃ c < np s, ∃ k < 64, qntValue s c k < -128 ∨ 127 < qntValue s c k := by
  simp only [qntRange8, List.any_eq_true, qntValues, mem_overPlanes, outside8, Bool.or_eq_true, decide_eq_true_eq]
  constructor
  · rintro ⟨x, ⟨c, hc, k, hk, rfl⟩, h⟩; exact ⟨c, hc, k, hk, h⟩
  · rintro ⟨c, hc, k, hk, h⟩; exact ⟨_, ⟨c, hc, k, hk, rfl⟩, h⟩

/-- CSC, LSH and DCT leave the WB entries of the planes they do not process (R178). -/
theorem wbEntry_performCsc (s : State) {n : Nat} (hn : 64 * np s ≤ n) : wbEntry (performCsc s) n = wbEntry s n := by
  simp only [wbEntry, performCsc]
  rw [read_overwrite_planes_ge s _ (by simp) _ hn]

theorem wbEntry_performLsh (s : State) {n : Nat} (hn : 64 * np s ≤ n) : wbEntry (performLsh s) n = wbEntry s n := by
  simp only [wbEntry, performLsh]
  rw [read_overwrite_planes_ge s _ (by simp) _ hn]

theorem wbEntry_performDct (s : State) {n : Nat} (hn : 64 * np s ≤ n) : wbEntry (performDct s) n = wbEntry s n := by
  simp only [wbEntry, performDct]
  rw [read_overwrite_planes_ge s _ (by simp) _ hn]

theorem outEntry_performQnt (s : State) {n : Nat} (hn : 64 * np s ≤ n) : outEntry (performQnt s) n = outEntry s n := by
  simp only [outEntry, performQnt]
  rw [Memory.read_overwrite, List.length_map, qntValues_length, if_neg (by omega)]

/-- Every stage keeps the canonical form of the buffer it writes. -/
theorem wf_performCsc {s : State} (h : Memory.wf 192 s.wb) : Memory.wf 192 (performCsc s).wb :=
  Memory.wf_overwrite (by rw [overPlanes_length s _ (by simp)]; rcases np_eq s with h | h <;> omega) h

theorem wf_performLsh {s : State} (h : Memory.wf 192 s.wb) : Memory.wf 192 (performLsh s).wb :=
  Memory.wf_overwrite (by rw [overPlanes_length s _ (by simp)]; rcases np_eq s with h | h <;> omega) h

theorem wf_performDct {s : State} (h : Memory.wf 192 s.wb) : Memory.wf 192 (performDct s).wb :=
  Memory.wf_overwrite (by rw [overPlanes_length s _ (by simp)]; rcases np_eq s with h | h <;> omega) h

theorem wf_performQnt {s : State} (h : Memory.wf 192 s.out) : Memory.wf 192 (performQnt s).out :=
  Memory.wf_overwrite (by rw [List.length_map, qntValues_length]; rcases np_eq s with h | h <;> omega) h

/-! ### The register port -/

/-- The targets that the map gives lie inside their buffers (R52). -/
theorem addressMap_inWord {off : Offset} {w : Nat} (h : addressMap off = some (.inWord w)) : w < 48 := by
  simp only [addressMap] at h
  repeat' split at h
  all_goals simp only [Option.some.injEq, reduceCtorEq, Target.inWord.injEq] at h
  omega

theorem addressMap_wb {off : Offset} {n : Nat} (h : addressMap off = some (.wb n)) : n < 192 := by
  simp only [addressMap] at h
  repeat' split at h
  all_goals simp only [Option.some.injEq, reduceCtorEq, Target.wb.injEq] at h
  omega

/-- A check that lets a transaction through has an aligned, mapped offset, no read-only target of a write, and no target that
waits for the engine (R156). -/
theorem checkAccess_ok {w : Bool} {off : Offset} {s : State} {t : Target} (h : checkAccess w off s = .ok t) :
    off.extractLsb' 0 2 = 0 ∧ addressMap off = some t ∧ (w && t.readonly) = false ∧
      (busy s && t.refusedWhileBusy w) = false := by
  unfold checkAccess at h
  split at h
  · cases h
  · rename_i ha
    split at h
    · cases h
    · rename_i t' ht
      split at h
      · cases h
      · rename_i hr
        split at h
        · cases h
        · rename_i hb; cases h
          exact ⟨not_not.1 ha, ht, by simpa using hr, by simpa using hb⟩

/-- Everything a write transaction can do: nothing, CMD_BUSY, or the write its target stands for (R145, R156). -/
theorem memWrite_cases (off : Offset) (d : Word) (s : State) :
    (∃ e, memWrite off d s = (s, some e)) ∨
    (busy s = true ∧ memWrite off d s = (raiseCmdError cmdBusy s, some .busyRefused)) ∨
    (∃ t, checkAccess true off s = .ok t ∧ memWrite off d s = (writeTarget t d s, none)) := by
  unfold memWrite
  cases hc : checkAccess true off s with
  | ok t => exact .inr (.inr ⟨t, rfl, rfl⟩)
  | error e =>
    simp only [refuseWrite]
    split
    · rename_i h
      refine .inr (.inl ⟨?_, by rw [h.1]⟩)
      unfold checkAccess at hc
      rw [h.2] at hc
      repeat' split at hc
      all_goals simp_all
    · exact .inl ⟨e, rfl⟩

/-- Everything a performed write can do, by target (R57 to R63). -/
theorem writeTarget_cases (t : Target) (d : Word) (s : State) :
    writeTarget t d s = s ∨ writeTarget t d s = writeCtrl d s ∨ (∃ op, decode d = .ok op ∧ writeTarget t d s = accept op s) ∨
    writeTarget t d s = raiseCmdError illegalCmd s ∨ writeTarget t d s = clearFlags d s ∨
    (∃ w, t = .inWord w ∧ writeTarget t d s = writeIn w d s) ∨ (∃ n, t = .wb n ∧ writeTarget t d s = writeWb n d s) := by
  cases t <;> simp only [writeTarget, writeCmd]
  case cmd => cases decode d <;> simp
  all_goals simp

/-- What a host line does: its write, if it is one, and then its reply is noted (R83). -/
theorem hostStep_cases (line : HostLine) (rest : List HostLine) (s : State) :
    (∃ r rest', hostStep line rest s = noteReply r rest' s) ∨
    (∃ off d r, line = .write off d ∧ hostStep line rest s = noteReply r rest (memWrite off d s).1) := by
  cases line with
  | write off d => exact .inr ⟨off, d, _, rfl, rfl⟩
  | read off => exact .inl ⟨_, _, rfl⟩
  | expect off d => exact .inl ⟨_, _, rfl⟩
  | poll off m v => exact .inl ⟨_, _, rfl⟩

end Sys2Proof.Machine
end

