-- ==== Sys2Proof/Laws/PerInstr.lean ====
section
/-! SUPPORT. The family of statements about each command as syntax: its encoding. -/

namespace Sys2Proof.Laws

/-- A command is well formed, its word is a legal command word with RSV = 0, and the word's OP field is the command's OP
(R76, R77). -/
def Encoding.Statement (i : Instr) : Prop :=
  WellFormed.instr i ∧ WellFormed.commandWord (encode i) ∧ rsvField (encode i) = 0 ∧ opField (encode i) = opcode i

theorem Encoding.csc : Encoding.Statement .csc := by unfold Encoding.Statement; decide

theorem Encoding.lsh : Encoding.Statement .lsh := by unfold Encoding.Statement; decide

theorem Encoding.dct : Encoding.Statement .dct := by unfold Encoding.Statement; decide

theorem Encoding.qnt : Encoding.Statement .qnt := by unfold Encoding.Statement; decide

theorem Encoding.run : Encoding.Statement .run := by unfold Encoding.Statement; decide

end Sys2Proof.Laws
end

