-- ==== Sys2Proof/Laws/Step.lean ====
section
/-! SUPPORT. What one step can do, said once, and that each update of State keeps the invariant. -/

namespace Sys2Proof.Machine

/-- Every command completes: exec answers `complete` of what its stages leave (R40, R154). -/
theorem exec_eq_complete (i : Instr) (s : State) :
    ∃ r u, exec i s = .next (complete r u) ∧
      (i = .csc ∧ r = false ∧ u = performCsc s ∨ i = .lsh ∧ r = false ∧ u = performLsh s ∨
       i = .dct ∧ r = false ∧ u = performDct s ∨ i = .qnt ∧ r = qntRange8 s ∧ u = performQnt s ∨
       i = .run ∧ r = qntRange8 (performStages s) ∧ u = performQnt (performStages s)) := by
  cases i
  · exact ⟨_, _, rfl, .inl ⟨rfl, rfl, rfl⟩⟩
  · exact ⟨_, _, rfl, .inr (.inl ⟨rfl, rfl, rfl⟩)⟩
  · exact ⟨_, _, rfl, .inr (.inr (.inl ⟨rfl, rfl, rfl⟩))⟩
  · exact ⟨_, _, rfl, .inr (.inr (.inr (.inl ⟨rfl, rfl, rfl⟩)))⟩
  · exact ⟨_, _, rfl, .inr (.inr (.inr (.inr ⟨rfl, rfl, rfl⟩)))⟩

/-- Every step is one event of the total order: a host turn, a reset, a completion, or an engine turn that passes (R67). -/
theorem step_cases (s : State) :
    (nextTurn s = .host ∧ step s = .next (hostTurn (dropTurn s))) ∨
    (nextTurn s = .reset ∧ step s = .next (applyReset (dropTurn s))) ∨
    (∃ op, nextTurn s = .engine ∧ s.phase = .busy op ∧ step s = exec op (dropTurn s)) ∨
    (nextTurn s = .engine ∧ s.phase = .idle ∧ step s = .next (dropTurn s)) := by
  unfold step
  cases nextTurn s with
  | host => exact .inl ⟨rfl, rfl⟩
  | reset => exact .inr (.inl ⟨rfl, rfl⟩)
  | engine =>
    cases hp : s.phase with
    | idle => exact .inr (.inr (.inr ⟨rfl, rfl, rfl⟩))
    | busy op => exact .inr (.inr (.inl ⟨op, rfl, rfl, rfl⟩))

theorem busy_iff (s : State) : busy s = true ↔ ∃ op, s.phase = .busy op := by
  unfold busy; cases s.phase <;> simp

/-! ### The invariant, update by update -/

theorem Inv_of_fields {s t : State} (h : s.Inv) (hb : t.BuffersCanonical) (hc : t.ctrl = s.ctrl) (he : t.err = s.err)
    (hk : t.errcode = s.errcode) (hf : t.FlagsClearWhileBusy) (ht : t.transpose = s.transpose) : t.Inv := by
  obtain ⟨-, h2, h3, -, h5⟩ := h
  refine ⟨hb, ?_, ?_, hf, ?_⟩
  · rw [State.CtrlReservedZero, hc]; exact h2
  · rw [State.ErrcodeLegal, he, hk]; exact h3
  · rw [State.TransposeShape, ht]; exact h5

theorem Inv_accept {s : State} (op : Instr) (h : s.Inv) : (accept op s).Inv :=
  Inv_of_fields h h.1 rfl rfl rfl (fun _ => ⟨rfl, rfl⟩) rfl

theorem Inv_complete {s : State} (r : Bool) (h : s.Inv) : (complete r s).Inv :=
  Inv_of_fields h h.1 rfl rfl rfl (fun hb => by simp [busy] at hb) rfl

theorem Inv_raiseCmdError {s : State} {c : BitVec 4} (hc : c = illegalCmd ∨ c = cmdBusy) (h : s.Inv) :
    (raiseCmdError c s).Inv := by
  obtain ⟨h1, h2, -, h4, h5⟩ := h
  exact ⟨h1, h2, by simpa [State.ErrcodeLegal] using hc, h4, h5⟩

theorem Inv_clearFlags {s : State} (d : Word) (h : s.Inv) : (clearFlags d s).Inv := by
  obtain ⟨h1, h2, h3, h4, h5⟩ := h
  refine ⟨h1, h2, ?_, ?_, h5⟩
  · simp only [State.ErrcodeLegal, clearFlags_err, clearFlags_errcode] at h3 ⊢
    by_cases hd : d.getLsbD 2 = true <;> simp_all
  · intro hb
    obtain ⟨hd, hr⟩ := h4 hb
    simp [hd, hr]

theorem Inv_writeCtrl {s : State} (d : Word) (h : s.Inv) : (writeCtrl d s).Inv := by
  obtain ⟨h1, -, h3, h4, h5⟩ := h
  refine ⟨h1, ?_, h3, h4, h5⟩
  simp only [State.CtrlReservedZero, writeCtrl_ctrl, BitVec.and_assoc]
  rw [show (0x00000303#32 &&& ~~~0x00000303#32) = 0 from by decide]; simp

theorem Inv_writeIn {s : State} {w : Nat} (d : Word) (hw : w < 48) (h : s.Inv) : (writeIn w d s).Inv := by
  refine Inv_of_fields h ⟨?_, h.1.2⟩ rfl rfl rfl h.2.2.2.1 rfl
  have := h.1.1
  exact Memory.wf_write _ (by omega) (Memory.wf_write _ (by omega) (Memory.wf_write _ (by omega)
    (Memory.wf_write _ (by omega) this)))

theorem Inv_writeWb {s : State} {n : Nat} (d : Word) (hn : n < 192) (h : s.Inv) : (writeWb n d s).Inv :=
  Inv_of_fields h ⟨h.1.1, Memory.wf_write _ hn h.1.2.1, h.1.2.2⟩ rfl rfl rfl h.2.2.2.1 rfl

theorem Inv_noteReply {s : State} (r : Reply) (rest : List HostLine) (h : s.Inv) : (noteReply r rest s).Inv :=
  Inv_of_fields h h.1 rfl rfl rfl h.2.2.2.1 rfl

theorem Inv_dropTurn {s : State} (h : s.Inv) : (dropTurn s).Inv := Inv_of_fields h h.1 rfl rfl rfl h.2.2.2.1 rfl

theorem Inv_applyReset (s : State) : (applyReset s).Inv := by
  refine ⟨⟨Memory.wf_nil _, Memory.wf_nil _, Memory.wf_nil _⟩, ?_, ?_, ?_, .inl rfl⟩
  · simp [State.CtrlReservedZero]
  · simp [State.ErrcodeLegal]
  · intro h; simp [busy] at h

theorem Inv_performCsc {s : State} (h : s.Inv) : (performCsc s).Inv :=
  Inv_of_fields h ⟨h.1.1, wf_performCsc h.1.2.1, h.1.2.2⟩ rfl rfl rfl h.2.2.2.1 rfl

theorem Inv_performLsh {s : State} (h : s.Inv) : (performLsh s).Inv :=
  Inv_of_fields h ⟨h.1.1, wf_performLsh h.1.2.1, h.1.2.2⟩ rfl rfl rfl h.2.2.2.1 rfl

theorem Inv_performDct {s : State} (h : s.Inv) : (performDct s).Inv := by
  obtain ⟨h1, h2, h3, h4, -⟩ := h
  exact ⟨⟨h1.1, wf_performDct h1.2.1, h1.2.2⟩, h2, h3, h4, .inr (by simp)⟩

theorem Inv_performQnt {s : State} (h : s.Inv) : (performQnt s).Inv :=
  Inv_of_fields h ⟨h.1.1, h.1.2.1, wf_performQnt h.1.2.2⟩ rfl rfl rfl h.2.2.2.1 rfl

end Sys2Proof.Machine
end

