-- ==== Sys2Proof/Laws/Port.lean ====
section
/-! SUPPORT. The register port, register by register: what a transaction on each named offset does, and what a host turn can
do while a command is in progress. -/

namespace Sys2Proof.Machine

/-- An offset of the window is its own number. -/
theorem offset_toNat (n : Nat) (h : n < 4096) : (BitVec.ofNat 12 n).toNat = n := by simp; omega

/-- An aligned offset. -/
theorem offset_aligned (n : Nat) (h4 : n % 4 = 0) : (BitVec.ofNat 12 n).extractLsb' 0 2 = 0 := by
  apply BitVec.eq_of_toNat_eq
  simp [BitVec.extractLsb'_toNat]; omega

/-- Alignment, read from the low two bits (R54). -/
theorem aligned_iff (off : Offset) : off.extractLsb' 0 2 = 0 ↔ off.toNat % 4 = 0 := by
  rw [← BitVec.toNat_inj]; simp [BitVec.extractLsb'_toNat]

/-- A write to STATUS (R63). -/
theorem memWrite_status (s : State) (d : Word) : memWrite 0x00C#12 d s = (clearFlags d s, none) := by
  have : addressMap 0x00C#12 = some .status := by decide
  simp [memWrite, checkAccess, this, Target.readonly, Target.refusedWhileBusy, writeTarget]

/-- A read of STATUS (R63). -/
theorem memRead_status (s : State) : memRead 0x00C#12 s = (statusWord s, none) := by
  have : addressMap 0x00C#12 = some .status := by decide
  simp [memRead, checkAccess, this, Target.refusedWhileBusy, readTarget]

/-- The fields of STATUS (R28). -/
theorem statusWord_fields (s : State) :
    (statusWord s).getLsbD 0 = busy s ∧ (statusWord s).getLsbD 1 = s.done ∧ (statusWord s).getLsbD 2 = s.err ∧
      (statusWord s).getLsbD 3 = s.range8 ∧ (statusWord s).extractLsb' 4 4 = 0 ∧
      (statusWord s).extractLsb' 8 4 = s.errcode ∧ (statusWord s).extractLsb' 12 20 = 0 := by
  unfold statusWord
  generalize busy s = b
  generalize s.done = d
  generalize s.err = e
  generalize s.range8 = r
  generalize s.errcode = c
  revert b d e r c
  decide +revert

/-- The checks on a CMD write (R156). -/
theorem checkAccess_cmd (s : State) :
    checkAccess true 0x008#12 s = if busy s then .error .busyRefused else .ok .cmd := by
  have : addressMap 0x008#12 = some .cmd := by decide
  simp [checkAccess, this, Target.readonly, Target.refusedWhileBusy]

/-- A write to CMD (R62, R152). -/
theorem memWrite_cmd (d : Word) (s : State) : memWrite 0x008#12 d s =
   if busy s then (raiseCmdError cmdBusy s, some .busyRefused) else (writeCmd d s, none) := by
  have : addressMap 0x008#12 = some .cmd := by decide
  unfold memWrite
  rw [checkAccess_cmd]
  by_cases h : busy s = true <;> simp [h, refuseWrite, this, writeTarget]

/-- A write to CTRL while idle (R61). -/
theorem memWrite_ctrl (d : Word) (s : State) (h : busy s = false) :
    memWrite 0x004#12 d s = (writeCtrl d s, none) := by
  have : addressMap 0x004#12 = some .ctrl := by decide
  simp [memWrite, checkAccess, this, Target.readonly, Target.refusedWhileBusy, writeTarget, h]

/-- A read of CTRL while idle (R61). -/
theorem memRead_ctrl (s : State) (h : busy s = false) : memRead 0x004#12 s = (s.ctrl, none) := by
  have : addressMap 0x004#12 = some .ctrl := by decide
  simp [memRead, checkAccess, this, Target.refusedWhileBusy, readTarget, h]

/-- CTRL's four implemented bits pass its mask (R22). -/
theorem ctrlMask_bits (d : Word) :
    (d &&& 0x303#32).getLsbD 0 = d.getLsbD 0 ∧ (d &&& 0x303#32).getLsbD 1 = d.getLsbD 1 ∧
      (d &&& 0x303#32).getLsbD 8 = d.getLsbD 8 ∧ (d &&& 0x303#32).getLsbD 9 = d.getLsbD 9 := by
  simp

/-- Where IN stands in the map (R57). -/
theorem addressMap_inOffset (w : Nat) (h : w < 48) : addressMap (inOffset w) = some (.inWord w) := by
  unfold addressMap inOffset; simp only [offset_toNat _ (show 0x100 + 4 * w < 4096 by omega)]
  repeat' split
  all_goals first | omega | skip
  congr 2; omega

/-- Where WB stands (R58). -/
theorem addressMap_wbOffset (c k : Nat) (hc : c < 3) (h : k < 64) :
    addressMap (wbOffset c k) = some (.wb (64*c+k)) := by
  unfold addressMap wbOffset; simp only [offset_toNat _ (show 0x400 + 0x100 * c + 4 * k < 4096 by omega)]
  repeat' split
  all_goals first | omega | skip
  congr 2; omega

/-- Where OUT stands (R59). -/
theorem addressMap_outOffset (c k : Nat) (hc : c < 3) (h : k < 64) :
    addressMap (outOffset c k) = some (.out (64*c+k)) := by
  unfold addressMap outOffset; simp only [offset_toNat _ (show 0x800 + 0x100 * c + 4 * k < 4096 by omega)]
  repeat' split
  all_goals first | omega | skip
  congr 2; omega

/-- While a command is in progress a write can only raise CMD_BUSY or clear flags (R64). -/
theorem memWrite_busy {s : State} (hb : busy s = true) (off : Offset) (d : Word) :
    (memWrite off d s).1 = s ∨ (memWrite off d s).1 = raiseCmdError cmdBusy s ∨ (memWrite off d s).1 = clearFlags d s := by
  rcases memWrite_cases off d s with ⟨e, h⟩ | ⟨-, h⟩ | ⟨t, hc, h⟩
  · rw [h]; exact .inl rfl
  · rw [h]; exact .inr (.inl rfl)
  · rw [h]
    obtain ⟨-, -, hr, hr'⟩ := checkAccess_ok hc
    rw [hb] at hr'
    cases t <;> simp_all [Target.refusedWhileBusy, Target.readonly, writeTarget]

/-- A host turn while a command is in progress leaves CTRL, the phase and every buffer (R64). -/
theorem hostTurn_busy (s : State) (hb : busy s = true) :
    let t := hostTurn s
    t.ctrl = s.ctrl ∧ t.phase = s.phase ∧ t.inBuf = s.inBuf ∧ t.wb = s.wb ∧ t.out = s.out ∧
      t.resets = s.resets ∧ t.transpose = s.transpose ∧ (t.done = true → s.done = true) ∧
      (t.range8 = true → s.range8 = true) ∧ t.sched = s.sched := by
  intro t
  have ht : t = hostTurn s := rfl
  clear_value t
  unfold hostTurn at ht
  split at ht
  · subst ht; simp
  · rename_i line rest _
    rcases hostStep_cases line rest s with ⟨r, rest', h⟩ | ⟨off, d, r, -, h⟩
    · rw [h] at ht; subst ht; simp
    · rw [h] at ht; subst ht
      rcases memWrite_busy hb off d with h | h | h <;> rw [h] <;> (simp; try tauto)

/-- A write adds no reply: the host notes it. -/
theorem memWrite_replies (off : Offset) (d) (s : State) : (memWrite off d s).1.replies = s.replies := by
  rcases memWrite_cases off d s with ⟨e, h⟩ | ⟨-, h⟩ | ⟨t, -, h⟩ <;> rw [h]
  · rfl
  · rcases writeTarget_cases t d s with h | h | ⟨_, _, h⟩ | h | h | ⟨_, _, h⟩ | ⟨_, _, h⟩ <;> simp only [h] <;> rfl

/-- A write keeps the invariant. -/
theorem Inv_memWrite {s : State} (off d) (h : s.Inv) : (memWrite off d s).1.Inv := by
  rcases memWrite_cases off d s with ⟨e, he⟩ | ⟨-, he⟩ | ⟨t, hc, he⟩ <;> rw [he]
  · exact h
  · exact Inv_raiseCmdError (.inr rfl) h
  · obtain ⟨-, hm, -, -⟩ := checkAccess_ok hc
    rcases writeTarget_cases t d s with h' | h' | ⟨_, _, h'⟩ | h' | h' | ⟨w, hw, h'⟩ | ⟨n, hn, h'⟩ <;> simp only [h']
    · exact h
    · exact Inv_writeCtrl d h
    · exact Inv_accept _ h
    · exact Inv_raiseCmdError (.inl rfl) h
    · exact Inv_clearFlags d h
    · subst hw; exact Inv_writeIn d (addressMap_inWord hm) h
    · subst hn; exact Inv_writeWb d (addressMap_wb hm) h

/-- So does a host turn. -/
theorem Inv_hostTurn {s : State} (h : s.Inv) : (hostTurn s).Inv := by
  unfold hostTurn
  split
  · exact h
  · rename_i line rest _
    rcases hostStep_cases line rest s with ⟨r, rest', h'⟩ | ⟨off, d, r, -, h'⟩ <;> rw [h']
    · exact Inv_noteReply _ _ h
    · exact Inv_noteReply _ _ (Inv_memWrite off d h)

/-- One step at the head of a run. -/
theorem run_succ (n : Nat) (x y : State) (h : step x = .next y) :
    Host.Core.run Sys2Proof.core (n+1) x = Host.Core.run Sys2Proof.core n y := by
  have h' : Sys2Proof.core.step x = .next y := h
  simp only [Host.Core.run]; rw [h']

end Sys2Proof.Machine
end

