-- ==== Sys2Proof/Laws/Reference.lean ====
section
/-! SUPPORT. Where the document's basis function is positive, for the input of R138 that is written in its terms. -/

namespace Sys2Proof.Reference

/-- A(2,j) has the sign of cos((2j+1) * π / 8). -/
theorem basis_two_pos (j : ℕ) : 0 < basis 2 j ↔ 0 < Real.cos ((2 * (j : ℝ) + 1) * Real.pi / 8) := by
  have h2 : (0 : ℝ) < √2 := by positivity
  have e : (2 * (j : ℝ) + 1) * ((2 : ℕ) : ℝ) * Real.pi / 16 = (2 * (j : ℝ) + 1) * Real.pi / 8 := by push_cast; ring
  simp only [basis, scale, cosine, e]
  simp [h2]

/-- A(2,j) > 0 in the columns 0, 1, 6 and 7, and in no other (R38, R138). -/
theorem basis_two_pos_iff (j : ℕ) (hj : j < 8) : 0 < basis 2 j ↔ j ∈ [0, 1, 6, 7] := by
  have hpi := Real.pi_pos
  rw [basis_two_pos]
  have pos : ∀ x : ℝ, -(Real.pi / 2) < x → x < Real.pi / 2 → 0 < Real.cos x := fun x h1 h2 =>
    Real.cos_pos_of_mem_Ioo ⟨h1, h2⟩
  have neg : ∀ x : ℝ, Real.pi / 2 < x → x < Real.pi + Real.pi / 2 → ¬0 < Real.cos x := fun x h1 h2 =>
    not_lt.2 (Real.cos_neg_of_pi_div_two_lt_of_lt h1 h2).le
  have back : ∀ x : ℝ, Real.cos x = Real.cos (x - 2 * Real.pi) := fun x => (Real.cos_sub_two_pi x).symm
  interval_cases j
  · exact iff_of_true (pos _ (by norm_num; linarith) (by norm_num; linarith)) (by decide)
  · exact iff_of_true (pos _ (by norm_num; linarith) (by norm_num; linarith)) (by decide)
  · exact iff_of_false (neg _ (by norm_num; linarith) (by norm_num; linarith)) (by decide)
  · exact iff_of_false (neg _ (by norm_num; linarith) (by norm_num; linarith)) (by decide)
  · exact iff_of_false (neg _ (by norm_num; linarith) (by norm_num; linarith)) (by decide)
  · exact iff_of_false (neg _ (by norm_num; linarith) (by norm_num; linarith)) (by decide)
  · rw [back]; exact iff_of_true (pos _ (by norm_num; linarith) (by norm_num; linarith)) (by decide)
  · rw [back]; exact iff_of_true (pos _ (by norm_num; linarith) (by norm_num; linarith)) (by decide)

end Sys2Proof.Reference
end

