-- ==== Sys2Proof/Laws/Units.lean ====
section
/-! SUPPORT. The four units, position by position: each stage's exact result in a processed plane, and how large it is. -/

namespace Sys2Proof.Machine

/-- A sample is an unsigned 8-bit value (R34). -/
theorem sample_bounds (b : Byte) : (0:Int) ≤ (b.toNat:Int) ∧ (b.toNat : Int) ≤ 255 := by have := b.isLt; omega

/-- The ranges of R93, per plane and mode. -/
theorem cscValue_range (s : State) (c k : Nat) :
    0 ≤ cscValue s c k ∧ cscValue s c k ≤ 2555000 ∧ (c = 0 → cscValue s c k ≤ 2550000) ∧
      (chan1 s = false → c ≠ 0 → 5000 ≤ cscValue s c k) ∧ (chan1 s = true → cscValue s c k ≤ 2550000) := by
  unfold cscValue greySample rgbSample lumaOf cbOf crOf
  obtain ⟨a0,a1⟩ := sample_bounds (inByte s k)
  obtain ⟨b0,b1⟩ := sample_bounds (inByte s (3*k+0))
  obtain ⟨c0,c1⟩ := sample_bounds (inByte s (3*k+1))
  obtain ⟨d0,d1⟩ := sample_bounds (inByte s (3*k+2))
  split
  · refine ⟨?_, ?_, ?_, ?_, ?_⟩ <;> intros <;> simp_all <;> omega
  · simp only
    split
    · refine ⟨?_, ?_, ?_, ?_, ?_⟩ <;> intros <;> simp_all <;> omega
    · split
      · refine ⟨?_, ?_, ?_, ?_, ?_⟩ <;> intros <;> simp_all <;> omega
      · refine ⟨?_, ?_, ?_, ?_, ?_⟩ <;> intros <;> simp_all <;> omega

/-- What CSC leaves in a processed plane, exactly: no narrowing (R90, R93). -/
theorem wbInt_csc (s : State) {c k : Nat} (hc : c < np s) (hk : k < 64) :
    wbInt (performCsc s) c k = cscValue s c k := by
  rw [wbInt_performCsc s c hk, if_pos hc]
  obtain ⟨h1, h2, -⟩ := cscValue_range s c k
  exact wrap32_eq (by omega) (by omega)

/-- `wrap32` subtracts a multiple of 2^32 and lands in the 32-bit range (R10). -/
theorem wrap32_cases (x : Int) : ∃ q : Int, wrap32 x = x + 2^32 * q ∧ -2^31 ≤ wrap32 x ∧ wrap32 x < 2^31 := by
  refine ⟨(wrap32 x - x) / 2^32, ?_, ?_, ?_⟩
  · have : (2^32 : Int) ∣ wrap32 x - x := by
      unfold wrap32 bits32; rw [BitVec.toInt_ofInt]
      have h := Int.bmod_emod (x := x) (m := 2^32)
      have := Int.emod_emod_of_dvd
      omega
    omega
  · exact BitVec.le_toInt _
  · exact BitVec.toInt_lt

/-- A WB entry is a 32-bit value (R35). -/
theorem wbInt_range (s : State) (c k : Nat) : -2147483648 ≤ wbInt s c k ∧ wbInt s c k ≤ 2147483647 := by
  have h1 := BitVec.le_toInt (wbEntry s (64*c+k))
  have h2 := BitVec.toInt_lt (x := wbEntry s (64*c+k))
  unfold wbInt; norm_num at h1 h2 ⊢; omega

/-- What LSH leaves in a processed plane (R97). -/
theorem wbInt_lsh (s : State) {c k : Nat} (hc : c < np s) (hk : k < 64) :
    wbInt (performLsh s) c k = wrap32 (wbInt s c k - 1280000) := by
  rw [wbInt_performLsh s c hk, if_pos hc]

/-- One entry of the row pass (R108). -/
theorem rowPass_getD (S : List Int) {n : Nat} (hn : n < 64) :
    (rowPass S).getD n 0 = rndShr (sum8 fun j => S.getD (8 * (n / 8) + j) 0 * cosK (n % 8) j) 14 :=
  overPositions_getD _ hn

/-- One entry of the column pass (R109). -/
theorem colPass_getD (R : List Int) {n : Nat} (hn : n < 64) :
    (colPass R).getD n 0 = rndShr (sum8 fun i => cosK (n / 8) i * R.getD (8 * i + n % 8) 0) 14 :=
  overPositions_getD _ hn

/-- What DCT leaves in a processed plane (R105). -/
theorem wbInt_dct (s : State) {c k : Nat} (hc : c < np s) (hk : k < 64) :
    wbInt (performDct s) c k = wrap32 ((dctPlane (wbPlane s c)).getD k 0) := by
  rw [wbInt_performDct s c hk, if_pos hc]

/-- A sum of eight products is bounded by the largest factor times the absolute sum of the others. -/
theorem abs_sum8_le (f g : Nat → Int) (M : Int) (hM : ∀ j < 8, |f j| ≤ M) :
    |sum8 fun j => f j * g j| ≤ M * sum8 fun j => |g j| := by
  rw [sum8_eq_sum, sum8_eq_sum, Finset.mul_sum]
  refine (Finset.abs_sum_le_sum_abs _ _).trans (Finset.sum_le_sum fun j hj => ?_)
  rw [abs_mul]
  exact mul_le_mul_of_nonneg_right (hM j (Finset.mem_range.1 hj)) (abs_nonneg _)

/-- No row of |K| sums to more than 2^17 (R110). -/
theorem cosK_row_sum_le : ∀ u < 8, (sum8 fun j => |cosK u j|) ≤ 131072 := by decide

/-- The rounded shift of a value within 2^14 * M lies within M. -/
theorem rnd_abs_le (x M : Int) (h : |x| ≤ 16384 * M) : |rndShr x 14| ≤ M := by
  have h1 := rndShr_near x
  generalize rndShr x 14 = y at *
  rw [abs_le] at *
  have h2 : |16384 * y - x| ≤ 8192 := by omega
  rw [abs_le] at h2
  constructor <;> omega

/-- The row pass grows a plane by at most 8 (R111). -/
theorem rowPass_abs_le (S : List Int) (M : Int) (hM : ∀ k < 64, |S.getD k 0| ≤ M) {n} (hn : n < 64) :
    |(rowPass S).getD n 0| ≤ 8 * M := by
  rw [rowPass_getD S hn]
  apply rnd_abs_le
  have h0 : 0 ≤ M := (abs_nonneg _).trans (hM 0 (by omega))
  have := abs_sum8_le (fun j => S.getD (8 * (n/8) + j) 0) (fun j => cosK (n % 8) j) M (fun j hj => hM _ (by omega))
  have h2 := cosK_row_sum_le (n % 8) (by omega)
  nlinarith

/-- The DCT grows a plane by at most 64 (R111). -/
theorem dctPlane_abs_le (S : List Int) (M : Int) (hM : ∀ k < 64, |S.getD k 0| ≤ M) {n} (hn : n < 64) :
    |(dctPlane S).getD n 0| ≤ 64 * M := by
  unfold dctPlane
  rw [colPass_getD _ hn]
  apply rnd_abs_le
  have h0 : 0 ≤ M := (abs_nonneg _).trans (hM 0 (by omega))
  have := abs_sum8_le (fun i => (rowPass S).getD (8 * i + n % 8) 0) (fun i => cosK (n / 8) i) (8 * M)
    (fun j hj => rowPass_abs_le S M hM (by omega))
  have h2 := cosK_row_sum_le (n / 8) (by omega)
  simp only [mul_comm] at this ⊢
  nlinarith

/-- The quotient of a 32-bit T (R123). -/
theorem quantize_abs_le (t : Int) (Q : Nat) (h1 : -2147483648 ≤ t) (h2 : t ≤ 2147483647) (hQ : 1 ≤ Q) :
    |quantize t Q| ≤ 26844 := by
  have h := divRha_near t (80000*Q) (by omega) (by omega)
  unfold quantize
  generalize divRha t (80000 * Q) = q at h
  push_cast at h
  have hQ' : (1:Int) ≤ Q := by exact_mod_cast hQ
  rw [abs_le]
  have h3 : |80000 * (Q:Int) * q - t| ≤ 40000 * Q := by omega
  rw [abs_le] at h3
  constructor
  · by_contra hh
    have : q ≤ -26845 := by omega
    nlinarith
  · by_contra hh
    have : 26845 ≤ q := by omega
    nlinarith

/-- A value in that bound is stored in 16 bits exactly (R36). -/
theorem toInt_ofInt16 (x : Int) (h : |x| ≤ 26844) : (BitVec.ofInt 16 x).toInt = x := by
  have := abs_le.1 h
  rw [BitVec.toInt_ofInt, Int.bmod_eq_of_le] <;> norm_num <;> omega

/-- Every divisor is positive (R120). -/
theorem quantDivisor_pos (s : State) (c) {k} (hk : k < 64) : 1 ≤ quantDivisor s c k := by
  unfold quantDivisor unitQ
  have h1 : ∀ k < 64, 1 ≤ luma k := by decide
  have h2 : ∀ k < 64, 1 ≤ chroma k := by decide
  split
  · omega
  · split
    · exact h1 k hk
    · exact h2 k hk

/-- What QNT leaves in a processed plane, exactly (R120, R123). -/
theorem outInt_qnt (s : State) {c k : Nat} (hc : c < np s) (hk : k < 64) :
    outInt (performQnt s) c k = qntValue s c k := by
  rw [outInt_performQnt s c hk, if_pos hc]
  obtain ⟨h1, h2⟩ := wbInt_range s c k
  exact toInt_ofInt16 _ (quantize_abs_le _ _ h1 h2 (quantDivisor_pos s c hk))

/-- After the first three stages of RUN, WB holds the DCT of the shifted samples, within the bound of R138. -/
theorem wbInt_stages (s : State) {c k} (hc : c < np s) (hk : k < 64) :
    wbInt (performStages s) c k = (dctPlane (wbPlane (performLsh (performCsc s)) c)).getD k 0 ∧
      |wbInt (performStages s) c k| ≤ 81920000 := by
  have hS : ∀ j < 64, |(wbPlane (performLsh (performCsc s)) c).getD j 0| ≤ 1280000 := by
    intro j hj
    rw [wbPlane_getD _ c hj, wbInt_lsh _ (by exact hc) hj, wbInt_csc s hc hj]
    obtain ⟨h1, h2, h3, h4, h5⟩ := cscValue_range s c j
    rw [wrap32_eq (by omega) (by omega), abs_le]; omega
  have hd := dctPlane_abs_le _ _ hS hk
  have := abs_le.1 hd
  unfold performStages
  rw [wbInt_dct _ (by exact hc) hk, wrap32_eq (by omega) (by omega)]
  exact ⟨rfl, hd.trans (by norm_num)⟩

/-! ### A stage neither reads nor writes what accept and completion write (R39, R40) -/

theorem performCsc_accept (s : State) (op : Instr) : performCsc (accept op s) = accept op (performCsc s) := rfl

theorem performLsh_accept (s : State) (op : Instr) : performLsh (accept op s) = accept op (performLsh s) := rfl

theorem performDct_accept (s : State) (op : Instr) : performDct (accept op s) = accept op (performDct s) := rfl

theorem performQnt_accept (s : State) (op : Instr) : performQnt (accept op s) = accept op (performQnt s) := rfl

theorem qntRange8_accept (s : State) (op : Instr) : qntRange8 (accept op s) = qntRange8 s := rfl

theorem performCsc_complete (s : State) (r : Bool) : performCsc (complete r s) = complete r (performCsc s) := rfl

theorem performLsh_complete (s : State) (r : Bool) : performLsh (complete r s) = complete r (performLsh s) := rfl

theorem performDct_complete (s : State) (r : Bool) : performDct (complete r s) = complete r (performDct s) := rfl

theorem performQnt_complete (s : State) (r : Bool) : performQnt (complete r s) = complete r (performQnt s) := rfl

theorem qntRange8_complete (s : State) (r : Bool) : qntRange8 (complete r s) = qntRange8 s := rfl

end Sys2Proof.Machine
end

