-- ==== Sys2Proof/Tests/Slice0.lean ====
section
/-! SUPPORT. Tests, each expected value from the spec (the vector or rule is named), and for every obligation with hypotheses a
witness: a concrete state and operands that meet them. -/

namespace Sys2Proof.Tests

open Sys2Proof.Machine

/-! ## Small states -/

/-- The state an outcome leaves. -/
def after (o : Host.Outcome State Fault Refusal) : State :=
  match o with
  | .next s => s
  | .fault _ => State.reset
  | .refused _ => State.reset

/-- An idle core whose CTRL is c and whose 192 IN bytes are f 0, f 1, ... -/
def block (c : Word) (f : Nat → Byte) : State :=
  { State.reset with ctrl := c, inBuf := Memory.overwrite ((List.range 192).map f) [] }

/-- An idle core whose CTRL is c and whose 192 WB entries are f 0, f 1, ... -/
def planes (c : Word) (f : Nat → Int) : State :=
  { State.reset with ctrl := c, wb := Memory.overwrite ((List.range 192).map fun n => bits32 (f n)) [] }

/-- Every pixel (r, g, b). -/
def pixels (r g b : Byte) : State := block 0 fun n => if n % 3 = 0 then r else if n % 3 = 1 then g else b

/-- A core with a command in progress. -/
def running (op : Instr) (host : List HostLine) (sched : List Turn) : State :=
  { State.reset with phase := .busy op, host := host, sched := sched }

/-! ## Decoding: words written out from the format of R76 and the map of R77 -/

theorem test_decode_csc : decode 0b0000_0000_0000_0000_0000_0000_0000_0001#32 = .ok .csc := by decide

theorem test_decode_lsh : decode 0b0000_0000_0000_0000_0000_0000_0000_0010#32 = .ok .lsh := by decide

theorem test_decode_dct : decode 0b0000_0000_0000_0000_0000_0000_0000_0011#32 = .ok .dct := by decide

theorem test_decode_qnt : decode 0b0000_0000_0000_0000_0000_0000_0000_0100#32 = .ok .qnt := by decide

theorem test_decode_run : decode 0b0000_0000_0000_0000_0000_0000_0000_0101#32 = .ok .run := by decide

/-- R79: OP 0 and OP 6 to 15 are reserved. -/
theorem test_decode_reserved_op :
    ∀ op ∈ [0, 6, 7, 8, 9, 10, 11, 12, 13, 14, 15], decode (BitVec.ofNat 32 op) = .error .reservedOpcode := by decide

/-- X7, X8 and each single reserved bit: RSV must be 0 (R79). -/
theorem test_decode_reserved_bits :
    decode 0x00000015#32 = .error .reservedBits ∧ decode 0x80000001#32 = .error .reservedBits ∧
      ∀ b < 28, decode (1#32 ||| 1#32 <<< (4 + b)) = .error .reservedBits := by decide

theorem test_table_word :
    decodeTableWord 32 4 = some .qnt ∧ decodeTableWord 32 0 = none ∧ decodeTableWord 32 21 = none := by decide

/-- The step after `withFetchWord` runs the command: STATUS reads DONE alone (R40). -/
theorem test_placed_word_runs :
    statusWord (after (step (State.reset.withFetchWord 32 1))) = 0x00000002#32 := by decide

/-- An illegal word placed the same way is ILLEGAL_CMD (X6). -/
theorem test_placed_illegal_word :
    statusWord (after (step (State.reset.withFetchWord 32 6))) = 0x00000104#32 := by decide

/-! ## WellFormed: each check refuses an ill-formed term -/

theorem test_wf_reservedBitsClear : ¬ WellFormed.reservedBitsClear 0x00000011#32 := by decide

theorem test_wf_opcodeAssigned :
    ¬ WellFormed.opcodeAssigned 0x00000000#32 ∧ ¬ WellFormed.opcodeAssigned 0x00000006#32 ∧
      WellFormed.opcodeAssigned 0x00000005#32 := by decide

theorem test_wf_commandWord :
    ¬ WellFormed.commandWord 0x00000015#32 ∧ ¬ WellFormed.commandWord 0x00000006#32 ∧
      WellFormed.commandWord 0x00000005#32 := by decide

theorem test_wf_inWord : ¬ WellFormed.inWord 48 ∧ WellFormed.inWord 47 := by decide

theorem test_wf_plane : ¬ WellFormed.plane 3 ∧ WellFormed.plane 2 := by decide

theorem test_wf_position : ¬ WellFormed.position 64 ∧ WellFormed.position 63 := by decide

/-- No term of `Instr` is ill-formed (R80): the check accepts all five. -/
theorem test_wf_instr : ∀ i : Instr, WellFormed.instr i := by
  intro i; cases i <;> trivial

/-! ## The commands -/

/-- CS7 at the last position. -/
theorem test_csc_rgb :
    let t := after (exec .csc (pixels 12 34 56))
    (wbInt t 0 63, wbInt t 1 63, wbInt t 2 63) = (299300, 1427114, 1152114) := by decide +kernel

/-- R92: the sample is Y, and planes 1 and 2 are not written. -/
theorem test_csc_grey :
    let t := after (exec .csc (block 1 fun n => if n = 63 then 77 else 0))
    wbInt t 0 63 = 770000 ∧ wbInt t 0 62 = 0 ∧ Memory.read t.wb 64 = none := by decide +kernel

/-- LS8 and LS9. -/
theorem test_lsh_wrap :
    let t := after (exec .lsh (planes 0 fun n => if n = 0 then -2146203648 else -2146203649))
    wbInt t 0 0 = -2147483648 ∧ wbInt t 2 63 = 2147483647 := by decide +kernel

/-- LS3 in place, with planes 1 and 2 kept in single-channel mode. -/
theorem test_lsh_single :
    let t := after (exec .lsh (planes 1 fun _ => 2555000))
    wbInt t 0 63 = 1275000 ∧ wbInt t 1 0 = 2555000 := by decide +kernel

/-- DC3: the impulse, whose transform is not symmetric (R116). -/
theorem test_dct_impulse :
    let t := after (exec .dct (planes 1 fun n => if n = 0 then 10000 else 0))
    wbInt t 0 10 = 18123 ∧ wbInt t 0 17 = 18122 ∧ wbInt t 0 57 = 3826 := by decide +kernel

/-- DC2: S = 2147483647 in plane 2 wraps to -64. -/
theorem test_dct_wrap :
    wbInt (after (exec .dct (planes 0 fun n => if 128 ≤ n then 2147483647 else 0))) 2 0 = -64 := by decide +kernel

/-- Q9, and Q13 in the last position: ties round away from zero; RANGE8 stays 0. -/
theorem test_qnt_ties :
    let t := after (exec .qnt (planes 1 fun n => if n = 2 then 3600000 else if n = 63 then -3960000 else 0))
    outInt t 0 2 = 5 ∧ outInt t 0 63 = -1 ∧ t.range8 = false := by decide +kernel

/-- Q20 and Q14: the UNIT table's range report, and a chroma divisor of the standard tables. -/
theorem test_qnt_tables :
    let t := after (exec .qnt (planes 3 fun n => if n = 63 then -10280000 else 0))
    outInt t 0 63 = -129 ∧ t.range8 = true ∧
      outInt (after (exec .qnt (planes 0 fun n => if n = 64 then 81600000 else 0))) 1 0 = 60 := by decide +kernel

/-- RN3: pure blue, plane 2. -/
theorem test_run_blue : outInt (after (exec .run (pixels 0 0 255))) 2 0 = -10 := by decide +kernel

/-- The single-channel RUN of 95_test_vectors.md: OUT[0][0] = 64, and plane 1 of OUT not written (R141). -/
theorem test_run_single :
    let t := after (exec .run (block 1 fun _ => 255))
    outInt t 0 0 = 64 ∧ wbInt t 0 0 = 81280000 ∧ Memory.read t.out 64 = none := by decide +kernel

/-! ## The register port -/

/-- X3. -/
theorem test_ctrl_reserved_bits :
    memRead 0x004#12 (memWrite 0x004#12 0xFFFFFFFF#32 State.reset).1 = (0x00000303#32, none) := by decide

/-- X5, then X9. -/
theorem test_illegal_cmd :
    let s := (memWrite 0x008#12 0#32 State.reset).1
    statusWord s = 0x00000104#32 ∧ statusWord (memWrite 0x00C#12 4#32 s).1 = 0 := by decide

/-- X12, X13, X23, X25: the order of the checks. -/
theorem test_check_order :
    (memWrite 0x802#12 0 State.reset).2 = some .misaligned ∧ (memWrite 0xFFE#12 0 State.reset).2 = some .misaligned ∧
      (memWrite 0x800#12 0 (running .run [] [])).2 = some .readonly ∧
      memWrite 0x00A#12 1 (running .run [] []) = (running .run [] [], some .misaligned) := by decide

/-- X14 to X17: the edges of the map. -/
theorem test_map_edges :
    (memRead 0x010#12 State.reset).2 = some .unmapped ∧ (memWrite 0x1C0#12 0 State.reset).2 = some .unmapped ∧
      (memWrite 0x1BC#12 0 State.reset).2 = none ∧ (memRead 0x700#12 State.reset).2 = some .unmapped ∧
      (memRead 0xB00#12 State.reset).2 = some .unmapped ∧ addressMap 0x6FC#12 = some (.wb 191) ∧
      addressMap 0xAFC#12 = some (.out 191) := by decide

/-- X19 to X22, X24: what a core with a command in progress answers. -/
theorem test_busy_port :
    let s := running .csc [] []
    memWrite 0x008#12 1#32 s = ({ s with err := true, errcode := 2 }, some .busyRefused) ∧
      memRead 0x100#12 s = (0, some .busyRefused) ∧ memWrite 0x004#12 1#32 s = (s, some .busyRefused) ∧
      memRead 0x800#12 s = (0, some .busyRefused) ∧ memRead 0x000#12 s = (0x59434331#32, none) ∧
      memRead 0x00C#12 s = (0x00000001#32, none) ∧ memRead 0x008#12 s = (0, none) := by decide

/-- The layout check of R73 and the words of `FILLIN 10, 20, 30` (R84). -/
theorem test_fillin :
    (linesFillin 12 34 56)[0]? = some (.write 0x100#12 0x0C38220C#32) ∧
      (linesFillin 10 20 30).take 3 =
        [.write 0x100#12 0x0A1E140A#32, .write 0x104#12 0x140A1E14#32, .write 0x108#12 0x1E140A1E#32] := by decide

/-- P2: IN word 15 holds samples 60 to 63, the first in the low byte (R56). -/
theorem test_in_byte_order :
    let s := (memWrite 0x13C#12 0x3F3E3D3C#32 State.reset).1
    inByte s 60 = 60 ∧ inByte s 63 = 63 ∧ memRead 0x13C#12 s = (0x3F3E3D3C#32, none) := by decide

/-- A read of OUT is sign-extended: q = -8 reads 0xFFFFFFF8 (R59, P3). -/
theorem test_out_sign_extended :
    memRead 0xA00#12 { State.reset with out := [(128, -8#16)] } = (0xFFFFFFF8#32, none) := by decide

/-- The IRQ vectors of 95_test_vectors.md. -/
theorem test_irq :
    let s := { State.reset with err := true, errcode := 1#4 }
    irq { s with ctrl := 0x300 } = true ∧ irq { s with ctrl := 0x100 } = false ∧
      irq { State.reset with ctrl := 0x100, done := true } = true ∧ irq { s with done := true } = false := by decide

/-! ## Witnesses: each obligation's hypotheses can be met -/

theorem witness_DecodeAndEncodeAgree :
    decode 0x2#32 = .ok .lsh ∧ 32 ≤ 32 ∧ 5 < 2 ^ 32 ∧ decodeTableWord 32 5 = some .run ∧
      32 ≤ 40 ∧ 2 ^ 40 - 1 < 2 ^ 40 ∧ decodeTableWord 40 (2 ^ 40 - 1) = none := by decide

theorem witness_CommandWriteFollowsDecode :
    (0x10#32).toNat / 16 ≠ 0 ∧ (0xFFFFFFFF#32).toNat / 16 ≠ 0 ∧
      (∀ d < 16, (BitVec.ofNat 32 d).toNat / 16 = 0 ∧ (BitVec.ofNat 32 d).toNat % 16 = d) ∧
      busy (running .run [] []) = true ∧ busy State.reset = false ∧ decode 0x0#32 = .error .reservedOpcode ∧
      decode 0x10#32 = .error .reservedBits ∧ decode 0x5#32 = .ok .run := by decide

theorem witness_StepRunsPendingCommand :
    (running .qnt [] []).phase = .busy .qnt ∧ (running .qnt [] []).sched = [] ∧
      (running .qnt [] [.engine, .host]).sched = .engine :: [.host] := by decide

theorem witness_PlacedWordRunsNext : decodeTableWord 32 3 = some .dct ∧ State.reset.sched = [] := by decide

theorem witness_HostTurnPerformsOneLine :
    ∀ line ∈ [HostLine.write 0x100 7, .read 0x00C, .expect 0x000 0, .poll 0x00C 1 0, .poll 0x00C 1 1],
      (running .csc [line, .read 0] [.host, .engine]).host = line :: [.read 0] ∧
      (running .csc [line, .read 0] [.host, .engine]).sched = .host :: [.engine] ∧
      ({ State.reset with host := [line] } : State).sched = [] ∧
      busy { State.reset with host := [line] } = false := by decide

theorem witness_PendingCommandCompletes :
    let s := running .dct [.read 0x00C, .write 0x008 1] [.host, .host]
    s.phase = .busy .dct ∧ Turn.reset ∉ s.sched := by decide

theorem witness_EitherOrderOfCompletionAndTransaction :
    ∀ line ∈ [HostLine.read 0x00C, .write 0x00C 2, .write 0x008 4],
      (running .csc [line] []).phase = .busy .csc ∧ (running .csc [line] []).host = line :: [] ∧
      (2#32).getLsbD 1 = true ∧ decode 4#32 = .ok .qnt := by decide

theorem witness_BusyHostTurnTouchesNoData :
    let s := running .run [.write 0x004 3] [.host]
    busy s = true ∧ nextTurn s = .host := by decide

theorem witness_WhoWritesTheBuffers :
    nextTurn State.reset = .host ∧ nextTurn (running .csc [] []) = .engine ∧
      (running .csc [] []).phase ≠ .busy .qnt ∧ (running .csc [] []).phase ≠ .busy .run ∧
      (running .csc [] []).phase ≠ .busy .dct ∧ (running .dct [] []).phase = .busy .dct ∧
      nextTurn (running .dct [] []) = .engine ∧ (running .qnt [] []).phase = .busy .qnt ∧
      nextTurn (running .qnt [] []) = .engine ∧ nextTurn { State.reset with sched := [.engine] } = .engine ∧
      nextTurn { State.reset with sched := [.reset] } = .reset := by decide

theorem witness_StepKeepsInvariant :
    (running .csc [] []).Inv ∧ ∃ t, step (running .csc [] []) = .next t ∧ t.done = true :=
  ⟨by decide, _, rfl, rfl⟩

theorem witness_CscConvertsRgb :
    chan1 (pixels 12 34 56) = false ∧ (inByte (pixels 12 34 56) (3 * 63)).toNat = 12 ∧
      (inByte (pixels 12 34 56) (3 * 63 + 1)).toNat = 34 ∧ (inByte (pixels 12 34 56) (3 * 63 + 2)).toNat = 56 ∧
      inByte (pixels 9 9 9) (3 * 63) = inByte (pixels 9 9 9) (3 * 63 + 1) ∧
      inByte (pixels 9 9 9) (3 * 63 + 1) = inByte (pixels 9 9 9) (3 * 63 + 2) := by decide +kernel

theorem witness_CscTakesGreyAsLuma :
    chan1 (block 1 fun _ => 77) = true ∧ inByte (block 1 fun _ => 77) 63 = 77 := by decide +kernel

theorem witness_CscRangesAreTight :
    chan1 (pixels 0 0 0) = false ∧ chan1 (block 1 fun _ => 255) = true ∧ 2 < np (pixels 0 0 0) ∧
      inByte (block 1 fun _ => 0) 63 = 0 ∧ inByte (block 1 fun _ => 255) 63 = 255 := by decide +kernel

/-- The six inputs of R93's table, at the last position. -/
theorem witness_CscRangesAreTight_inputs :
    let px := fun (r g b : Byte) => [inByte (pixels r g b) 189, inByte (pixels r g b) 190, inByte (pixels r g b) 191]
    px 0 0 0 = [0, 0, 0] ∧ px 255 255 255 = [255, 255, 255] ∧ px 255 255 0 = [255, 255, 0] ∧
      px 0 0 255 = [0, 0, 255] ∧ px 0 255 255 = [0, 255, 255] ∧ px 255 0 0 = [255, 0, 0] := by decide +kernel

theorem witness_WhiteAndBlackAreExact :
    chan1 (pixels 255 255 255) = false ∧ (∀ c < 3, inByte (pixels 255 255 255) (3 * 63 + c) = 255) ∧
      chan1 (pixels 0 0 0) = false ∧ (∀ c < 3, inByte (pixels 0 0 0) (3 * 63 + c) = 0) := by decide +kernel

theorem witness_LshSubtractsTheBias :
    0 < np State.reset ∧ wbInt (planes 0 fun _ => 2550000) 2 63 = 2550000 ∧
      wbInt (planes 1 fun _ => 1280000) 0 63 = 1280000 := by decide +kernel

theorem witness_LshCornerCases :
    ∀ w ∈ [(-2147483648 : Int), -2146203649, -2146203648, -2144923648],
      2 < np (planes 0 fun _ => w) ∧ wbInt (planes 0 fun _ => w) 2 63 = w := by decide +kernel

theorem witness_NeutralChromaShiftsToZero :
    2 < np (planes 0 fun _ => 1280000) ∧ (∀ k < 64, wbInt (planes 0 fun _ => 1280000) 2 k = 1280000) ∧
      chan1 (pixels 9 9 9) = false ∧
      (∀ k < 64, inByte (pixels 9 9 9) (3 * k) = inByte (pixels 9 9 9) (3 * k + 1) ∧
        inByte (pixels 9 9 9) (3 * k + 1) = inByte (pixels 9 9 9) (3 * k + 2)) := by decide +kernel

theorem witness_DctIsRowThenColumnPass :
    2 < np (planes 0 fun _ => 1270000) ∧ (∀ k < 64, wbInt (planes 0 fun _ => 1270000) 2 k = 1270000) := by
  decide +kernel

theorem witness_DctStoreWidth :
    ∀ w ∈ [(-33554431 : Int), 33554431, 33554432, 1073741824],
      2 < np (planes 0 fun _ => w) ∧ (∀ k < 64, wbInt (planes 0 fun _ => w) 2 k = w) ∧
      (w < 33554432 → (33554431 : Int) ≤ 33554431 ∧ |w| ≤ 33554431) := by decide +kernel

theorem witness_DctIsExactAtFourPositions : (List.replicate 64 (7 : Int)).length = 64 := by decide

theorem witness_DctOfConstantPlane :
    (List.replicate 64 (2000000 : Int)).length = 64 ∧
      (∀ k < 64, (List.replicate 64 (2000000 : Int)).getD k 0 = 2000000) ∧ (2000000 : Int) = 10000 * 200 := by decide

theorem witness_DctLinearityCornerCases :
    (∀ k < 64, (List.replicate 64 (0 : Int)).getD k 0 = 0) ∧
      (∀ k < 64, (List.replicate 64 (-5 : Int)).getD k 0 = -(List.replicate 64 (5 : Int)).getD k 0) ∧
      1 < 64 ∧ 1 ∉ [0, 4, 32, 36] ∧ 63 ∉ [0, 4, 32, 36] ∧ 0 < np (planes 1 fun _ => 33554432) ∧ 0 < np (planes 1 fun _ => -33554432) ∧
      (∀ k < 64, wbInt (planes 1 fun _ => -33554432) 0 k = -wbInt (planes 1 fun _ => 33554432) 0 k) ∧
      (∀ k < 64, (List.replicate 64 (9 : Int)).getD k 0 =
        (List.replicate 64 (4 : Int)).getD k 0 + (List.replicate 64 (5 : Int)).getD k 0) := by decide +kernel

theorem witness_DctIsNotTransposeSymmetric :
    ((10000 : Int) :: List.replicate 63 0).length = 64 ∧
      ∀ k < 64, ((10000 : Int) :: List.replicate 63 0).getD k 0 = if k = 0 then 10000 else 0 := by
  decide +kernel

theorem witness_DctAccuracy :
    (List.replicate 64 (-1280000 : Int)).length = 64 ∧
      (∀ k < 64, |(List.replicate 64 (-1280000 : Int)).getD k 0| ≤ 1280000) ∧ (1280000 : Int) ≤ 1280000 := by
  decide +kernel

theorem witness_RoundingIsHalfAwayFromZero : 0 < 80000 ∧ 80000 % 2 = 0 ∧ 1 ≤ 1 := by simp

theorem witness_QntRoundsTheQuotient :
    2 < np State.reset ∧ 99 = (if State.reset.ctrl.getLsbD 1 then 1 else chromaTable.getD 63 0) ∧
      wbInt (planes 0 fun _ => 0) 2 63 = 0 ∧ wbInt (planes 0 fun _ => -1) 2 63 = -1 := by decide +kernel

theorem witness_QuantizedValueFits16Bits :
    ∀ t ∈ [(-2147483648 : Int), 2147483647], -2147483648 ≤ t ∧ t ≤ 2147483647 ∧ 1 ≤ 1 := by decide

theorem witness_IdentityTableRoundsCoefficients :
    qtab (planes 2 fun _ => 0) = true ∧ np (planes 2 fun _ => 0) = 3 ∧ qtab (planes 3 fun _ => 0) = true ∧
      np (planes 3 fun _ => 0) = 1 := by decide

theorem witness_RunEqualsTheFourCommands : busy (pixels 1 2 3) = false := by decide

theorem witness_ResultsDependOnlyOnOperands :
    let s := block 0 fun _ => 5
    let t := { block 0 fun _ => 5 with wb := [(0, 9#32)], done := true }
    let u := planes 1 fun _ => 5
    let v := { planes 1 fun n => if n < 64 then 5 else 6 with inBuf := [(0, 9#8)] }
    (chan1 s = chan1 t ∧ qtab s = qtab t ∧ ∀ b < 192, inByte s b = inByte t b) ∧
      chan1 u = chan1 v ∧ qtab u = qtab v ∧ ∀ n < 64 * np u, wbEntry u n = wbEntry v n := by decide +kernel

/-- The second and third clauses: an idle host read, an engine turn that passes, and the last offset below IN. -/
theorem witness_ResultsDependOnlyOnOperands_between :
    nextTurn { State.reset with host := [.read 0x100] } ≠ .reset ∧
      nextTurn { State.reset with host := [.read 0x100], sched := [.engine] } = .engine ∧ State.reset.phase = .idle ∧
      (∀ off d rest, ({ State.reset with host := [.read 0x100] } : State).host ≠ .write off d :: rest) ∧
      (0x0FF#12).toNat < 0x100 := by
  refine ⟨by decide, by decide, rfl, fun _ _ _ h => by simp at h, by decide⟩

/-- A black block in both modes, and a pure-blue one. -/
theorem witness_RunBounds_black_and_blue :
    (∀ b < inBytesRead (block 0 fun _ => 0), inByte (block 0 fun _ => 0) b = 0) ∧
      (∀ b < inBytesRead (block 1 fun _ => 0), inByte (block 1 fun _ => 0) b = 0) ∧
      qtab (pixels 0 0 255) = false ∧ chan1 (pixels 0 0 255) = false ∧
      (∀ k < 64, inByte (pixels 0 0 255) (3 * k) = 0 ∧ inByte (pixels 0 0 255) (3 * k + 1) = 0 ∧
        inByte (pixels 0 0 255) (3 * k + 2) = 255) := by decide +kernel

/-- The grey blocks of 255 in the columns where A(2,j) > 0 and 0 elsewhere, in both modes. -/
theorem witness_RunBounds_columns :
    let s := block 0 fun b => if b / 3 % 8 ∈ [0, 1, 6, 7] then 255 else 0
    let t := block 1 fun b => if b % 8 ∈ [0, 1, 6, 7] then 255 else 0
    qtab s = false ∧ qtab t = false ∧ ∀ u ∈ [s, t], ∀ k < 64, ∀ b ∈ if chan1 u then [k] else [3 * k, 3 * k + 1, 3 * k + 2],
      (0 < Reference.basis 2 (k % 8) → inByte u b = 255) ∧ (¬0 < Reference.basis 2 (k % 8) → inByte u b = 0) := by
  have h : ∀ u ∈ [block 0 fun b => if b / 3 % 8 ∈ [0, 1, 6, 7] then 255 else 0,
        block 1 fun b => if b % 8 ∈ [0, 1, 6, 7] then 255 else 0],
      ∀ k < 64, ∀ b ∈ if chan1 u then [k] else [3 * k, 3 * k + 1, 3 * k + 2],
        inByte u b = if k % 8 ∈ [0, 1, 6, 7] then 255 else 0 := by decide +kernel
  refine ⟨by decide, by decide, fun u hu k hk b hb => ?_⟩
  rw [h u hu k hk b hb, Reference.basis_two_pos_iff (k % 8) (Nat.mod_lt _ (by omega))]
  exact ⟨fun g => if_pos g, fun g => if_neg g⟩

theorem witness_RunBounds : qtab State.reset = false ∧ qtab (block 1 fun _ => 0) = false := by decide

theorem witness_WhiteBlockEndToEnd :
    chan1 (pixels 255 255 255) = false ∧ qtab (pixels 255 255 255) = false ∧
      ∀ b < 192, inByte (pixels 255 255 255) b = 255 := by decide +kernel

/-- A middle-grey block: every shifted sample is 0, so the real coefficient is 0, and 0 stands 0.0348/16 away from every
half-integer. -/
theorem witness_RelationToTheReference :
    ∃ w, exec .lsh (after (exec .csc (pixels 128 128 128))) = .next w ∧ 0 < np (pixels 128 128 128) ∧
      quantDivisor (pixels 128 128 128) 0 (8 * 0 + 0) = 16 ∧ Reference.coeff (wbInt w 0) 0 0 / (16 : ℕ) = 0 ∧
      ∀ n : ℤ, (0.0348 : ℝ) / (16 : ℕ) < |(0 : ℝ) - (n + 1 / 2)| := by
  have zero : ∀ k < 64,
      wbInt (complete false (performLsh (complete false (performCsc (pixels 128 128 128))))) 0 k = 0 := by decide +kernel
  refine ⟨_, rfl, by decide, by decide, ?_, fun n => ?_⟩
  · have : ∀ i ∈ Finset.range 8, ∀ j ∈ Finset.range 8,
        wbInt (complete false (performLsh (complete false (performCsc (pixels 128 128 128))))) 0 (8 * i + j) = 0 :=
      fun i hi j hj => zero _ (by rw [Finset.mem_range] at hi hj; omega)
    unfold Reference.coeff
    rw [Finset.sum_eq_zero fun i hi => Finset.sum_eq_zero fun j hj => by
      show ((wbInt (complete false (performLsh (complete false (performCsc (pixels 128 128 128))))) 0 (8 * i + j) : ℤ) :
        ℝ) / 10000 * _ * _ = 0
      rw [this i hi j hj]; simp]
    simp
  · have h : (1 : ℤ) ≤ |2 * n + 1| := Int.one_le_abs (by omega)
    have h' : (1 : ℝ) ≤ |2 * (n : ℝ) + 1| := by exact_mod_cast h
    have e : |(0 : ℝ) - (n + 1 / 2)| = |2 * (n : ℝ) + 1| / 2 := by
      rw [zero_sub, abs_neg, ← abs_two (α := ℝ), ← abs_div, abs_two]; congr 1; ring
    rw [e]; norm_num at h' ⊢; linarith

theorem witness_SingleChannelRun :
    chan1 (block 1 fun _ => 0) = true ∧ qtab (block 1 fun _ => 0) = false ∧ qtab (block 3 fun _ => 0) = true := by decide

theorem witness_CommandsWriteTheirFlagsAndBuffers :
    busy (running .csc [] []) = true ∧ decode 6#32 = .error .reservedOpcode := by decide

theorem witness_BusyIsThePhase :
    (running .csc [] []).phase = .busy .csc ∧ busy State.reset = false ∧ decode 1#32 = .ok .csc ∧
      nextTurn (running .csc [] [.reset]) = .reset ∧ busy (running .csc [] []) = true ∧ (0x00C#12 : Offset) ≠ 0x008#12 ∧
      decode 0#32 = .error .reservedOpcode := by decide

theorem witness_DoneIsSetAndCleared :
    busy State.reset = false ∧ decode 5#32 = .ok .run ∧ (2#32).getLsbD 1 = true ∧
      nextTurn (running .run [] [.reset]) = .reset ∧ busy (running .run [] []) = true ∧
      decode 0x20#32 = .error .reservedBits := by decide

theorem witness_CommandErrorsAreRecorded :
    busy (running .run [] []) = true ∧ busy State.reset = false ∧ decode 0#32 = .error .reservedOpcode ∧
      (4#32).getLsbD 2 = true ∧ nextTurn { State.reset with err := true, sched := [.reset] } = .reset ∧
      decode 1#32 = .ok .csc := by decide

theorem witness_Range8ReportsTheResult :
    busy { State.reset with range8 := true } = false ∧ decode 4#32 = .ok .qnt ∧ (8#32).getLsbD 3 = true := by decide

theorem witness_InterruptLine :
    busy { State.reset with done := true } = false ∧ irq { State.reset with done := true, ctrl := 0x100 } = true := by
  decide

theorem witness_CtrlReadAndWrite : busy State.reset = false := by decide

theorem witness_CtrlWordSelectsConfiguration : busy State.reset = false ∧ ctrlWord true true true true = 0x303 := by
  decide

theorem witness_InWordTransactions :
    busy State.reset = false ∧ 47 < 48 ∧ (inOffset 0, inOffset 47) = (0x100#12, 0x1BC#12) := by decide

theorem witness_WbTransactions :
    busy State.reset = false ∧ 2 < 3 ∧ 63 < 64 ∧ (wbOffset 0 0, wbOffset 2 63) = (0x400#12, 0x6FC#12) := by decide

theorem witness_OutTransactions :
    busy State.reset = false ∧ 2 < 3 ∧ 63 < 64 ∧ (outOffset 0 0, outOffset 2 63) = (0x800#12, 0xAFC#12) := by decide

/-- A value for each clause, at the edges of its range. -/
theorem witness_ChecksRunInOrder :
    (∀ a ∈ [0x001, 0xFFF], a % 4 ≠ 0) ∧
      (∀ a ∈ [0x010, 0x0FC, 0x1C0, 0x3FC, 0x700, 0x7FC, 0xB00, 0xFFC], a % 4 = 0 ∧
        ((0x010 ≤ a ∧ a < 0x100) ∨ (0x1C0 ≤ a ∧ a < 0x400) ∨ (0x700 ≤ a ∧ a < 0x800) ∨ 0xB00 ≤ a)) ∧
      (∀ a ∈ [0x000, 0x800, 0xAFC], a % 4 = 0 ∧ (a = 0 ∨ (0x800 ≤ a ∧ a < 0xB00))) ∧
      busy (running .lsh [] []) = true ∧ busy State.reset = false ∧
      (∀ a ∈ [0x004, 0x100, 0x1BC, 0x400, 0x6FC], a % 4 = 0 ∧
        (a = 0x004 ∨ (0x100 ≤ a ∧ a < 0x1C0) ∨ (0x400 ≤ a ∧ a < 0x700))) ∧
      decode 0#32 = .error .reservedOpcode ∧ decode 1#32 = .ok .csc := by decide

theorem witness_ReadsAndRepeatedWrites :
    let s := { State.reset with host := [.read 0x00C] }
    s.host = .read 0x00C :: [] ∧ nextTurn s = .host ∧ (0x100#12 : Offset) ≠ 0x008#12 := by decide

theorem witness_UnwrittenEntriesReadFree :
    busy State.reset = false ∧ 2 < 3 ∧ 63 < 64 ∧ Memory.read State.reset.wb (64 * 2 + 63) = none ∧
      Memory.read State.reset.out (64 * 2 + 63) = none ∧ Memory.read State.reset.inBuf 191 = none := by decide

theorem witness_FillinPattern : 0 < 48 ∧ 47 < 48 := by decide

theorem witness_ResetLeavesTheResetState :
    nextTurn { pixels 1 2 3 with phase := .busy .run, ctrl := 3, err := true, errcode := 2, sched := [.reset] } = .reset := by
  decide

end Sys2Proof.Tests
end

section
/-! The real rounding `round_ha` of R12 and the two rounding primitives: `divRha` agrees with it on magnitudes and on the
sign; `rndShr` is `divRha` by a power of two. -/

namespace Sys2Proof.Machine

/-- Half of an even divisor, added before the truncating division, is the 1/2 added before the floor (R11, R12). -/
theorem floor_div_add_half (n d : ℕ) (hd : 0 < d) (he : d % 2 = 0) :
    ⌊(n : ℝ) / d + 1 / 2⌋ = (((n + d / 2) / d : ℕ) : ℤ) := by
  obtain ⟨h, rfl⟩ : ∃ h, d = 2 * h := ⟨d / 2, by omega⟩
  have hh : (h : ℝ) ≠ 0 := by exact_mod_cast (by omega : h ≠ 0)
  calc ⌊(n : ℝ) / (2 * h : ℕ) + 1 / 2⌋
    _ = ⌊((n + h : ℕ) : ℝ) / (2 * h : ℕ)⌋ := by congr 1; push_cast; field_simp
    _ = (((n + 2 * h / 2) / (2 * h) : ℕ) : ℤ) := by
      rw [Int.floor_div_natCast, Int.floor_natCast, Nat.mul_div_cancel_left h two_pos, Int.natCast_ediv]

/-- A positive divisor keeps the sign of R11. -/
theorem sgn_eq_sign_of_div (a : ℤ) (d : ℕ) (hd : 0 < d) : sgn a = if (a : ℝ) / d < 0 then -1 else 1 := by
  have hd' : (0 : ℝ) < d := Nat.cast_pos.mpr hd
  simp only [sgn, div_lt_iff₀ hd', zero_mul, Int.cast_lt_zero]

/-- `div_rha(a, d) = round_ha(a / d)` for an even d > 0 (R12). -/
theorem divRha_eq_roundHa (a : ℤ) (d : ℕ) (hd : 0 < d) (he : d % 2 = 0) :
    divRha a d = Reference.roundHa ((a : ℝ) / d) := by
  have magnitude : |(a : ℝ) / d| = (a.natAbs : ℝ) / d := by
    rw [abs_div, Nat.abs_cast, Nat.cast_natAbs, Int.cast_abs]
  rw [divRha, Reference.roundHa, magnitude, floor_div_add_half _ d hd he, sgn_eq_sign_of_div a d hd]

/-- `rnd_shr(x, n) = round_ha(x / 2^n)` for n >= 1 (R12). -/
theorem rndShr_eq_roundHa (x : ℤ) (n : ℕ) (hn : 1 ≤ n) : rndShr x n = Reference.roundHa ((x : ℝ) / 2 ^ n) := by
  have even : 2 ^ n % 2 = 0 := Nat.mod_eq_zero_of_dvd (dvd_pow_self 2 (by omega))
  rw [rndShr_eq_divRha x n hn, divRha_eq_roundHa x _ (by positivity) even, Nat.cast_pow, Nat.cast_ofNat]

/-- Settles O31: both primitives are the real rounding of R12, and both are odd (R11). -/
theorem roundingIsHalfAwayFromZero : Obligations.RoundingIsHalfAwayFromZero :=
  ⟨fun a d hd he => ⟨divRha_eq_roundHa a d hd he, divRha_neg a d hd⟩,
    fun x n hn => ⟨rndShr_eq_roundHa x n hn, rndShr_neg x n hn⟩⟩

end Sys2Proof.Machine
end

section
/-! The status flags (R29 to R33, R42, R46). A CMD write has three outcomes, each an exact next state; a completion has one
frame, and what it writes is said per buffer; the flag statements are read off these. -/

namespace Sys2Proof.Machine

/-! ### The outcomes of a CMD write (R39, R151, R152) -/

theorem memWrite_cmd_of_busy {s : State} (d : Word) (hb : busy s = true) :
    (memWrite 0x008#12 d s).1 = raiseCmdError cmdBusy s := by
  rw [memWrite_cmd, if_pos hb]

theorem memWrite_cmd_of_illegal {s : State} {d : Word} {why : Illegal} (hb : busy s = false)
    (hd : decode d = .error why) : (memWrite 0x008#12 d s).1 = raiseCmdError illegalCmd s := by
  simp [memWrite_cmd, hb, writeCmd, hd]

theorem memWrite_cmd_of_legal {s : State} {d : Word} {op : Instr} (hb : busy s = false) (hd : decode d = .ok op) :
    (memWrite 0x008#12 d s).1 = accept op s := by
  simp [memWrite_cmd, hb, writeCmd, hd]

/-- A CMD write that accepts no command raises one of the two command errors (R150). -/
theorem memWrite_cmd_of_refused {s : State} {d : Word} (h : busy s = true ∨ ∃ why, decode d = .error why) :
    ∃ c, (memWrite 0x008#12 d s).1 = raiseCmdError c s := by
  cases hb : busy s with
  | true => exact ⟨cmdBusy, memWrite_cmd_of_busy d hb⟩
  | false =>
    obtain ⟨why, hd⟩ : ∃ why, decode d = .error why := h.resolve_left (by simp [hb])
    exact ⟨illegalCmd, memWrite_cmd_of_illegal hb hd⟩

/-- CMD stands at its own offset only (R52). -/
theorem addressMap_cmd {off : Offset} (h : addressMap off = some .cmd) : off = 0x008#12 := by
  simp only [addressMap] at h
  repeat' split at h
  all_goals simp only [Option.some.injEq, reduceCtorEq] at h
  exact BitVec.eq_of_toNat_eq ‹off.toNat = 0x008›

/-- A performed write that accepts no command leaves BUSY (R29). -/
theorem busy_writeTarget {t : Target} {d : Word} (s : State) (h : t = .cmd → ∀ op, decode d ≠ .ok op) :
    busy (writeTarget t d s) = busy s := by
  rcases writeTarget_cases t d s with e | e | ⟨op, hd, e⟩ | e | e | ⟨_, -, e⟩ | ⟨_, -, e⟩
  case inr.inr.inl =>
    cases t with
    | cmd => exact absurd hd (h rfl op)
    | _ => simp [writeTarget]
  all_goals simp [e]

/-- A host write leaves BUSY unless it is an accept: a legal word written to CMD while idle (R29, R39). -/
theorem busy_memWrite {s : State} {off : Offset} {d : Word}
    (h : busy s = true ∨ off ≠ 0x008#12 ∨ ∀ op, decode d ≠ .ok op) : busy (memWrite off d s).1 = busy s := by
  rcases memWrite_cases off d s with ⟨e, hw⟩ | ⟨-, hw⟩ | ⟨t, hc, hw⟩ <;> rw [hw]
  · simp
  · refine busy_writeTarget s fun ht => ?_
    subst ht
    obtain ⟨-, hm, -, hb⟩ := checkAccess_ok hc
    rcases h with h | h | h
    · simp [h, Target.refusedWhileBusy] at hb
    · exact absurd (addressMap_cmd hm) h
    · exact h

/-- A reset turn (R170). -/
theorem step_of_reset {s : State} (h : nextTurn s = .reset) : step s = .next (applyReset (dropTurn s)) := by
  simp [step, h]

/-! ### Completion: its frame (R40, R46) -/

/-- Every command completes, with some RANGE8 result, and leaves IN. -/
theorem exec_completes (i : Instr) (s : State) :
    ∃ t, exec i s = .next t ∧ CompletedWith t.range8 s t ∧ KeepsIn s t := by
  cases i <;>
    exact ⟨_, rfl, ⟨rfl, rfl, rfl, rfl, ⟨rfl, rfl⟩, rfl, rfl, rfl, rfl⟩, fun _ => rfl⟩

/-- CSC, LSH and DCT complete with RANGE8 = 0 (R32). -/
theorem exec_range8_eq_false {i : Instr} {s t : State} (h : exec i s = .next t) (hi : i = .csc ∨ i = .lsh ∨ i = .dct) :
    t.range8 = false := by
  rcases hi with rfl | rfl | rfl <;> cases h <;> rfl

/-! ### Completion: the buffers (R46) -/

/-- `t` holds a written value in each WB entry of planes 0..NP-1, and the entries of `s` in the others. -/
def WritesWb (s t : State) : Prop :=
  (∀ n < 64 * np s, (Memory.read t.wb n).isSome) ∧ KeepsWbFrom (64 * np s) s t

/-- `t` holds a written value in each OUT entry of planes 0..NP-1, and the entries of `s` in the others. -/
def WritesOut (s t : State) : Prop :=
  (∀ n < 64 * np s, (Memory.read t.out n).isSome) ∧ KeepsOutFrom (64 * np s) s t

/-- An overwritten entry is written. -/
theorem Memory.isSome_read_overwrite {α : Type} (vs : List α) (m : Memory α) {n : Nat} (hn : n < vs.length) :
    (Memory.read (Memory.overwrite vs m) n).isSome := by
  simp [Memory.read_overwrite, hn]

theorem writesWb_performCsc (s : State) : WritesWb s (performCsc s) :=
  ⟨fun _ hn => Memory.isSome_read_overwrite _ _ (by rwa [overPlanes_length s _ (by simp)]), fun _ => wbEntry_performCsc s⟩

theorem writesWb_performLsh (s : State) : WritesWb s (performLsh s) :=
  ⟨fun _ hn => Memory.isSome_read_overwrite _ _ (by rwa [overPlanes_length s _ (by simp)]), fun _ => wbEntry_performLsh s⟩

theorem writesWb_performDct (s : State) : WritesWb s (performDct s) :=
  ⟨fun _ hn => Memory.isSome_read_overwrite _ _ (by rwa [overPlanes_length s _ (by simp)]), fun _ => wbEntry_performDct s⟩

theorem writesOut_performQnt (s : State) : WritesOut s (performQnt s) :=
  ⟨fun _ hn => Memory.isSome_read_overwrite _ _ (by rwa [List.length_map, qntValues_length]),
    fun _ => outEntry_performQnt s⟩

/-- Two stages in a row with one plane count write what either writes. -/
theorem WritesWb.trans {s u t : State} (hsu : WritesWb s u) (hut : WritesWb u t) (hnp : np u = np s) : WritesWb s t := by
  obtain ⟨-, kept⟩ := hsu
  obtain ⟨written, kept'⟩ := hut
  rw [hnp] at written kept'
  exact ⟨written, fun n hn => (kept' n hn).trans (kept n hn)⟩

theorem writesWb_performStages (s : State) : WritesWb s (performStages s) :=
  ((writesWb_performCsc s).trans (writesWb_performLsh _) rfl).trans (writesWb_performDct _) rfl

/-- Every command but QNT writes WB planes 0..NP-1 only. -/
theorem exec_writesWb {i : Instr} {s t : State} (h : exec i s = .next t) (hi : i ≠ .qnt) : WritesWb s t := by
  cases i <;> cases h
  case csc => exact writesWb_performCsc s
  case lsh => exact writesWb_performLsh s
  case dct => exact writesWb_performDct s
  case qnt => exact absurd rfl hi
  case run => exact writesWb_performStages s

/-- QNT and RUN write OUT planes 0..NP-1 only. -/
theorem exec_writesOut {i : Instr} {s t : State} (h : exec i s = .next t) (hi : i = .qnt ∨ i = .run) :
    WritesOut s t := by
  rcases hi with rfl | rfl <;> cases h
  · exact writesOut_performQnt s
  · exact writesOut_performQnt (performStages s)

theorem exec_qnt_keepsWb {s t : State} (h : exec .qnt s = .next t) : KeepsWbFrom 0 s t := by
  cases h; exact fun _ _ => rfl

theorem exec_keepsOut {i : Instr} {s t : State} (h : exec i s = .next t) (hi : i = .csc ∨ i = .lsh ∨ i = .dct) :
    KeepsOutFrom 0 s t := by
  rcases hi with rfl | rfl | rfl <;> cases h <;> exact fun _ _ => rfl

/-! ### The quantized result (R32, R120) -/

/-- OUT holds the exact quotients of WB in every processed plane: no value was narrowed. -/
def OutIsQuotient (s : State) : Prop :=
  ∀ c < np s, ∀ k < 64, outInt s c k = divRha (wbInt s c k) (80000 * quantDivisor s c k)

/-- Some OUT entry of a processed plane lies outside [-128, 127]. -/
def OutOutside8 (s : State) : Prop := ∃ c < np s, ∃ k < 64, outInt s c k < -128 ∨ 127 < outInt s c k

theorem outIsQuotient_performQnt (s : State) : OutIsQuotient (performQnt s) := fun _ hc _ hk => outInt_qnt s hc hk

/-- The RANGE8 result, computed before the store, is the range of what the store left in OUT (R124). -/
theorem qntRange8_iff_outOutside8 (s : State) : qntRange8 s = true ↔ OutOutside8 (performQnt s) := by
  rw [qntRange8_iff]
  constructor <;> rintro ⟨c, hc, k, hk, h⟩ <;> refine ⟨c, hc, k, hk, ?_⟩
  · rwa [outInt_qnt s hc hk]
  · rwa [outInt_qnt s hc hk] at h

/-- What QNT and RUN leave in OUT and RANGE8. -/
theorem exec_quantizes {i : Instr} {s t : State} (h : exec i s = .next t) (hi : i = .qnt ∨ i = .run) :
    (t.range8 = true ↔ OutOutside8 t) ∧ OutIsQuotient t := by
  rcases hi with rfl | rfl <;> cases h
  · exact ⟨qntRange8_iff_outOutside8 s, outIsQuotient_performQnt s⟩
  · exact ⟨qntRange8_iff_outOutside8 (performStages s), outIsQuotient_performQnt (performStages s)⟩

/-- A completion keeps the plane count and the table, both read from CTRL. -/
theorem np_of_ctrl_eq {s t : State} (h : t.ctrl = s.ctrl) : np t = np s := by rw [np, np, chan1, chan1, h]

theorem quantDivisor_of_ctrl_eq {s t : State} (h : t.ctrl = s.ctrl) : quantDivisor t = quantDivisor s := by
  funext c k; rw [quantDivisor, quantDivisor, qtab, qtab, h]

/-! ### The statements -/

/-- Settles O42, from the frame of a completion and what each command writes. -/
theorem commandsWriteTheirFlagsAndBuffers : Obligations.CommandsWriteTheirFlagsAndBuffers := by
  intro i s
  obtain ⟨t, he, ⟨done, -, idle, ctrl, error, agents⟩, keepsIn⟩ := exec_completes i s
  refine ⟨t, he, done, error, fun hi => ⟨exec_range8_eq_false he hi, ?_, exec_keepsOut he hi⟩, ?_, ?_, ?_,
    fun hi => (exec_writesWb he hi).1, fun hi => (exec_writesOut he hi).1, keepsIn, idle, ctrl, agents, ?_⟩
  · exact (exec_writesWb he (by rcases hi with rfl | rfl | rfl <;> decide)).2
  · rintro rfl
    exact ⟨exec_qnt_keepsWb he, (exec_writesOut he (.inl rfl)).2⟩
  · rintro rfl
    exact ⟨(exec_writesWb he (by decide)).2, (exec_writesOut he (.inr rfl)).2⟩
  · intro hi
    rw [← np_of_ctrl_eq ctrl]
    exact (exec_quantizes he hi).1
  · intro d hd
    obtain ⟨c, hc⟩ := memWrite_cmd_of_refused hd
    exact ⟨true, c, hc⟩

/-- Settles O43: BUSY is read off the phase, which only an accept, a completion and a reset write. -/
theorem busyIsThePhase : Obligations.BusyIsThePhase := by
  refine ⟨fun s => ?_, fun s d op hb hd => ?_, fun i s => ?_, fun s h => ⟨_, step_of_reset h, rfl⟩,
    fun s off d h => busy_memWrite h⟩
  · rw [(statusWord_fields s).1, busy_iff]
  · rw [memWrite_cmd_of_legal hb hd]; rfl
  · obtain ⟨t, he, ⟨-, -, idle, -⟩, -⟩ := exec_completes i s
    exact ⟨t, he, by rw [busy, idle]⟩

/-- Settles O44, from the outcomes of a CMD write and of a STATUS write. -/
theorem doneIsSetAndCleared : Obligations.DoneIsSetAndCleared := by
  refine ⟨fun i s => ?_, fun s d op hb hd => ?_, fun s d hd => ?_, fun s h => ⟨_, step_of_reset h, rfl⟩,
    fun s d h => ?_⟩
  · obtain ⟨t, he, ⟨done, -⟩, -⟩ := exec_completes i s
    exact ⟨t, he, done⟩
  · rw [memWrite_cmd_of_legal hb hd, accept_done]
  · rw [memWrite_status, clearFlags_done, hd]; simp
  · obtain ⟨c, hc⟩ := memWrite_cmd_of_refused h
    rw [hc, raiseCmdError_done]

/-- Settles O45: the three outcomes of a CMD write, and the two events that clear the error. -/
theorem commandErrorsAreRecorded : Obligations.CommandErrorsAreRecorded := by
  refine ⟨fun s d => memWrite_cmd_of_busy d, fun s d why => memWrite_cmd_of_illegal, fun s d hd => ?_,
    fun s h => ⟨_, step_of_reset h, rfl, rfl⟩, fun s d op hb hd => ?_⟩
  · rw [memWrite_status, clearFlags_err, clearFlags_errcode, hd]; simp
  · rw [memWrite_cmd_of_legal hb hd]; exact ⟨rfl, rfl⟩

/-- Settles O46: the frame keeps CTRL, so the planes and the table of the result are those of the command. -/
theorem range8ReportsTheResult : Obligations.Range8ReportsTheResult := by
  refine ⟨fun s d op hb hd => ?_, fun s i hi => ?_, fun s i hi => ?_, fun s d hd => ?_⟩
  · rw [memWrite_cmd_of_legal hb hd, accept_range8]
  · obtain ⟨t, he, ⟨-, -, -, ctrl, -⟩, -⟩ := exec_completes i s
    obtain ⟨range, quotient⟩ := exec_quantizes he (by simpa using hi)
    rw [← np_of_ctrl_eq ctrl, ← quantDivisor_of_ctrl_eq ctrl]
    exact ⟨t, he, range, quotient⟩
  · obtain ⟨t, he, -⟩ := exec_completes i s
    exact ⟨t, he, exec_range8_eq_false he (by simpa using hi)⟩
  · rw [memWrite_status, clearFlags_range8, hd]; simp

/-- Clearing a flag by a write-one bit (R33). -/
theorem and_not_eq_ite (flag bit : Bool) : (flag && !bit) = if bit then false else flag := by cases bit <;> simp

/-- Settles O47, from the STATUS word's fields and the flags that a STATUS write clears. -/
theorem statusReadAndClear : Obligations.StatusReadAndClear := fun s d =>
  ⟨⟨_, memRead_status s, statusWord_fields s⟩,
    ⟨_, memWrite_status s d, and_not_eq_ite .., and_not_eq_ite .., rfl, and_not_eq_ite .., rfl⟩⟩

/-- When the line is raised (R42). -/
theorem irq_iff (s : State) :
    irq s = true ↔ (s.done = true ∧ s.ctrl.getLsbD 8 = true) ∨ (s.err = true ∧ s.ctrl.getLsbD 9 = true) := by
  simp [irq, ieDone, ieErr]

/-- Settles O48: both enables pass CTRL's mask, so the line after a CTRL write is that of the word written. -/
theorem interruptLine : Obligations.InterruptLine := by
  refine fun s => ⟨irq_iff s, fun d hb => ⟨_, memWrite_ctrl d s hb, rfl, rfl, ?_⟩, fun r => rfl⟩
  obtain ⟨-, -, done, err⟩ := ctrlMask_bits d
  rw [irq_iff, writeCtrl_ctrl, writeCtrl_done, writeCtrl_err, done, err]

end Sys2Proof.Machine
end

section
/-! The cosine ROM (R38). For u >= 1 the basis function is `√2 * cos (m * π / 16)` at the folded angle number m. The rule
gives m = 1..7 a magnitude M[m] within 0.455 of the scaled value: squaring turns that into a bound on the cosine of the
doubled angle, and only π/4 and π/8 remain. -/

namespace Sys2Proof.Reference

/-- An integer closer than 1/2 is the rounded value (R12). -/
theorem eq_roundHa_of_near {x : ℝ} {n : ℤ} (h : |n - x| < 1 / 2) : n = roundHa x := by
  obtain ⟨lo, hi⟩ := abs_lt.1 h
  unfold roundHa
  split
  · have : ⌊|x| + 1 / 2⌋ = -n := by
      rw [abs_of_neg ‹x < 0›, Int.floor_eq_iff]; push_cast; constructor <;> linarith
    omega
  · have : ⌊|x| + 1 / 2⌋ = n := by
      rw [abs_of_nonneg (not_lt.1 ‹_›), Int.floor_eq_iff]; constructor <;> linarith
    omega

/-! ### Folding the angle -/

/-- The angle number of A(u,i) in 0..16: `(2i+1)*u` modulo 32, mirrored at 16 (R38). -/
def foldedAngle (u i : ℕ) : ℕ :=
  let m := (2 * i + 1) * u % 32
  if m > 16 then 32 - m else m

/-- `cos (m * π / 16)`: the cosine at an angle number. -/
noncomputable def cosAt (m : ℕ) : ℝ := Real.cos (m * (Real.pi / 16))

theorem cosAt_mod (n : ℕ) : cosAt (n % 32) = cosAt n := by
  have split : (n : ℝ) = (n % 32 : ℕ) + 32 * (n / 32 : ℕ) := by exact_mod_cast (Nat.mod_add_div n 32).symm
  rw [cosAt, cosAt, split, ← Real.cos_add_nat_mul_two_pi _ (n / 32)]
  congr 1; ring

theorem cosAt_mirror {m : ℕ} (hm : m ≤ 32) : cosAt (32 - m) = cosAt m := by
  rw [cosAt, cosAt, ← Real.cos_two_pi_sub, Nat.cast_sub hm]
  congr 1; push_cast; ring

theorem cosAt_reflect {m : ℕ} (hm : m ≤ 16) : cosAt (16 - m) = -cosAt m := by
  rw [cosAt, cosAt, ← Real.cos_pi_sub, Nat.cast_sub hm]
  congr 1; push_cast; ring

/-- The document's cosine is the cosine at the folded angle. -/
theorem cosine_eq_cosAt (u i : ℕ) : cosine u i = cosAt (foldedAngle u i) := by
  have unfolded : cosine u i = cosAt ((2 * i + 1) * u) := by
    rw [cosine, cosAt]; congr 1; push_cast; ring
  rw [unfolded, ← cosAt_mod, foldedAngle]
  split
  · exact (cosAt_mirror (by omega)).symm
  · rfl

/-- Row 0 of the basis is 1: C(0) cancels √2 (R38). -/
theorem basis_zero (i : ℕ) : basis 0 i = 1 := by simp [basis, scale, cosine]

theorem basis_of_pos {u : ℕ} (hu : 1 ≤ u) (i : ℕ) : basis u i = √2 * cosAt (foldedAngle u i) := by
  rw [basis, cosine_eq_cosAt, scale, if_neg (by omega), mul_one]

/-! ### The magnitudes -/

/-- The magnitudes M[m], m = 0..8 (R38). -/
def magnitude (m : ℕ) : ℤ := [16384, 22725, 21407, 19266, 16384, 12873, 8867, 4520, 0].getD m 0

/-- A scaled cosine is near K when its square, which the doubled angle gives, lies between the squares of K ∓ 0.455. -/
theorem abs_sub_scaled_cos_le {K x : ℝ} (hK : 1 ≤ K) (hx : 0 ≤ Real.cos x)
    (lo : (K - 0.455) ^ 2 ≤ 2 ^ 28 * (1 + Real.cos (2 * x))) (hi : 2 ^ 28 * (1 + Real.cos (2 * x)) ≤ (K + 0.455) ^ 2) :
    |K - 2 ^ 14 * (√2 * Real.cos x)| ≤ 0.455 := by
  have square : (2 ^ 14 * (√2 * Real.cos x)) ^ 2 = 2 ^ 28 * (1 + Real.cos (2 * x)) := by
    rw [Real.cos_two_mul, mul_pow, mul_pow, Real.sq_sqrt zero_le_two]; ring
  rw [← square] at lo hi
  have h1 := (abs_le_of_sq_le_sq' lo (by positivity)).2
  have h2 := (abs_le_of_sq_le_sq' hi (by linarith)).2
  rw [abs_le]; constructor <;> linarith

theorem sqrt_two_bounds : 1.41421356 < √2 ∧ √2 < 1.41421357 :=
  ⟨Real.lt_sqrt_of_sq_lt (by norm_num), (Real.sqrt_lt' (by norm_num)).2 (by norm_num)⟩

theorem cosAt_four : cosAt 4 = √2 / 2 := by
  rw [cosAt, ← Real.cos_pi_div_four]; congr 1; push_cast; ring

theorem cosAt_eight : cosAt 8 = 0 := by
  rw [cosAt, ← Real.cos_pi_div_two]; congr 1; push_cast; ring

theorem cosAt_two_bounds : 0.92387953 < cosAt 2 ∧ cosAt 2 < 0.92387954 := by
  obtain ⟨lo, hi⟩ := sqrt_two_bounds
  have closed : cosAt 2 = √(2 + √2) / 2 := by rw [cosAt, ← Real.cos_pi_div_eight]; congr 1; push_cast; ring
  rw [closed, lt_div_iff₀ two_pos, div_lt_iff₀ two_pos]
  exact ⟨Real.lt_sqrt_of_sq_lt (by norm_num at lo ⊢; linarith),
    (Real.sqrt_lt' (by norm_num)).2 (by norm_num at hi ⊢; linarith)⟩

theorem cosAt_six_bounds : 0.38268342 < cosAt 6 ∧ cosAt 6 < 0.38268344 := by
  obtain ⟨lo, hi⟩ := sqrt_two_bounds
  have closed : cosAt 6 = √(2 - √2) / 2 := by
    rw [cosAt, ← Real.sin_pi_div_eight, ← Real.cos_pi_div_two_sub]; congr 1; push_cast; ring
  rw [closed, lt_div_iff₀ two_pos, div_lt_iff₀ two_pos]
  exact ⟨Real.lt_sqrt_of_sq_lt (by norm_num at hi ⊢; linarith),
    (Real.sqrt_lt' (by norm_num)).2 (by norm_num at lo ⊢; linarith)⟩

/-- The squares of M[m] ∓ 0.455 enclose the square of the scaled cosine, for m = 1..7. -/
theorem magnitude_sq_bounds {m : ℕ} (h1 : 1 ≤ m) (h7 : m ≤ 7) :
    ((magnitude m : ℝ) - 0.455) ^ 2 ≤ 2 ^ 28 * (1 + cosAt (2 * m)) ∧
      2 ^ 28 * (1 + cosAt (2 * m)) ≤ ((magnitude m : ℝ) + 0.455) ^ 2 := by
  obtain ⟨lo4, hi4⟩ := sqrt_two_bounds
  obtain ⟨lo2, hi2⟩ := cosAt_two_bounds
  obtain ⟨lo6, hi6⟩ := cosAt_six_bounds
  have at10 : cosAt 10 = -cosAt 6 := cosAt_reflect (m := 6) (by omega)
  have at12 : cosAt 12 = -(√2 / 2) := by rw [← cosAt_four]; exact cosAt_reflect (m := 4) (by omega)
  have at14 : cosAt 14 = -cosAt 2 := cosAt_reflect (m := 2) (by omega)
  interval_cases m
  all_goals simp only [Nat.reduceMul, cosAt_four, cosAt_eight, at10, at12, at14]
  all_goals constructor <;> norm_num [magnitude] <;> linarith

/-- Each magnitude is within 0.455 of the scaled cosine it stands for (R38). -/
theorem abs_magnitude_sub_le {m : ℕ} (h1 : 1 ≤ m) (h7 : m ≤ 7) :
    |(magnitude m : ℝ) - 2 ^ 14 * (√2 * cosAt m)| ≤ 0.455 := by
  have acute : 0 ≤ cosAt m := by
    have hm : (m : ℝ) ≤ 7 := by exact_mod_cast h7
    refine Real.cos_nonneg_of_mem_Icc ⟨?_, ?_⟩ <;> nlinarith [Real.pi_pos, (Nat.cast_nonneg m : (0 : ℝ) ≤ m)]
  have double : Real.cos (2 * (m * (Real.pi / 16))) = cosAt (2 * m) := by rw [cosAt]; congr 1; push_cast; ring
  obtain ⟨lo, hi⟩ := magnitude_sq_bounds h1 h7
  have positive : ∀ n ≤ 7, 1 ≤ magnitude n := by decide
  exact abs_sub_scaled_cos_le (by exact_mod_cast positive m h7) acute (double ▸ lo) (double ▸ hi)

/-! ### The entries -/

/-- Every ROM entry is a magnitude with the sign of its folded angle (R38). -/
theorem cosK_eq_magnitude : ∀ u < 8, ∀ i < 8,
    Machine.cosK u i =
      if foldedAngle u i > 8 then -magnitude (16 - foldedAngle u i) else magnitude (foldedAngle u i) := by decide

/-- No angle of a row u >= 1 falls on a multiple of π/2. -/
theorem foldedAngle_mem : ∀ u < 8, 1 ≤ u → ∀ i < 8,
    (1 ≤ foldedAngle u i ∧ foldedAngle u i ≤ 7) ∨ (9 ≤ foldedAngle u i ∧ foldedAngle u i ≤ 15) := by decide

/-- In row 4 every angle is an odd multiple of π/4. -/
theorem foldedAngle_four : ∀ i < 8, foldedAngle 4 i = 4 ∨ foldedAngle 4 i = 12 := by decide

theorem cosK_zero_exact {i : ℕ} (hi : i < 8) : (Machine.cosK 0 i : ℝ) = 2 ^ 14 * basis 0 i := by
  have row : ∀ i < 8, Machine.cosK 0 i = 2 ^ 14 := by decide
  rw [row i hi, basis_zero]; norm_num

theorem cosK_four_exact {i : ℕ} (hi : i < 8) : (Machine.cosK 4 i : ℝ) = 2 ^ 14 * basis 4 i := by
  have half : √2 * (√2 / 2) = 1 := by rw [mul_div_assoc', Real.mul_self_sqrt zero_le_two, div_self two_ne_zero]
  rw [cosK_eq_magnitude 4 (by decide) i hi, basis_of_pos (by decide)]
  rcases foldedAngle_four i hi with h | h <;> rw [h]
  · rw [cosAt_four, half]; norm_num [magnitude]
  · rw [show 12 = 16 - 4 from rfl, cosAt_reflect (by decide), cosAt_four, mul_neg, half]; norm_num [magnitude]

/-- The error bound of R38: row 0 is exact, and an entry of another row has the error of its magnitude. -/
theorem abs_cosK_sub_le {u i : ℕ} (hu : u < 8) (hi : i < 8) :
    |(Machine.cosK u i : ℝ) - 2 ^ 14 * basis u i| ≤ 0.455 := by
  rcases Nat.eq_zero_or_pos u with rfl | pos
  · rw [cosK_zero_exact hi, sub_self, abs_zero]; norm_num
  · rw [cosK_eq_magnitude u hu i hi, basis_of_pos pos]
    rcases foldedAngle_mem u hu pos i hi with ⟨h1, h7⟩ | ⟨h9, h15⟩ <;> generalize foldedAngle u i = m at *
    · rw [if_neg (by omega)]
      exact abs_magnitude_sub_le h1 h7
    · have mirrored : cosAt m = -cosAt (16 - m) := by rw [cosAt_reflect (by omega), neg_neg]
      rw [if_pos (by omega), mirrored, Int.cast_neg, mul_neg, mul_neg, ← neg_sub', abs_neg]
      exact abs_magnitude_sub_le (by omega) (by omega)

theorem cosK_fits_16_bits : ∀ u < 8, ∀ i < 8, -32768 ≤ Machine.cosK u i ∧ Machine.cosK u i ≤ 32767 := by decide

/-- Settles O25: the error bound is below 1/2, so it also gives the rounding. -/
theorem cosineRomIsTheRoundedBasis : Obligations.CosineRomIsTheRoundedBasis := by
  refine ⟨fun u hu i hi => ⟨?_, abs_cosK_sub_le hu hi, cosK_fits_16_bits u hu i hi⟩, cosK_eq_magnitude,
    fun i hi => ⟨cosK_zero_exact hi, cosK_four_exact hi⟩, by decide, by decide⟩
  exact eq_roundHa_of_near ((abs_cosK_sub_le hu hi).trans_lt (by norm_num))

end Sys2Proof.Reference
end

section
/-! Repeated writes to one sparse buffer: the last value at an entry counts, and writes to different entries commute. Both
hold of every list, canonical or not. -/

namespace Sys2Proof.Machine

variable {α : Type}

/-- The second write to an entry replaces the first. -/
theorem Memory.write_write_same (m : Memory α) (a : Nat) (v w : α) :
    Memory.write (Memory.write m a v) a w = Memory.write m a w := by
  induction m with
  | nil => simp [Memory.write]
  | cons c m ih =>
    obtain ⟨e, x⟩ := c
    rcases lt_trichotomy a e with h | rfl | h
    · simp [Memory.write, h]
    · simp [Memory.write]
    · simp [Memory.write, h.not_gt, h.ne', ih]

/-- The smaller entry ends before the larger one, whichever is written first: both walks agree up to the smaller entry's
place. -/
theorem Memory.write_comm_of_lt (m : Memory α) {a b : Nat} (v w : α) (hab : a < b) :
    Memory.write (Memory.write m a v) b w = Memory.write (Memory.write m b w) a v := by
  induction m with
  | nil => simp [Memory.write, hab, hab.not_gt, hab.ne']
  | cons c m ih =>
    obtain ⟨e, x⟩ := c
    rcases lt_trichotomy a e with hae | rfl | hea
    · rcases lt_trichotomy b e with h | rfl | h
      · simp [Memory.write, hab, hab.not_gt, hab.ne', hae, h]
      · simp [Memory.write, hab, hab.not_gt, hab.ne']
      · simp [Memory.write, hab.not_gt, hab.ne', hae, h.not_gt, h.ne']
    · simp [Memory.write, hab.not_gt, hab.ne']
    · have heb : e < b := hea.trans hab
      simp [Memory.write, hea.not_gt, hea.ne', heb.not_gt, heb.ne', ih]

theorem Memory.write_comm (m : Memory α) {a b : Nat} (v w : α) (hab : a ≠ b) :
    Memory.write (Memory.write m a v) b w = Memory.write (Memory.write m b w) a v := by
  rcases hab.lt_or_gt with h | h
  · exact Memory.write_comm_of_lt m v w h
  · exact (Memory.write_comm_of_lt m w v h).symm

/-- An entry that a write would not change stays so after a write of another entry. -/
theorem Memory.write_eq_self_write {m : Memory α} {a b : Nat} {v : α} (w : α) (hab : a ≠ b)
    (h : Memory.write m a v = m) : Memory.write (Memory.write m b w) a v = Memory.write m b w := by
  rw [← Memory.write_comm m v w hab, h]

end Sys2Proof.Machine
end

section
/-! The register port's data transactions (R57 to R61, R65, R51). A transaction at an aligned offset that the map names is
decided by its target alone; each buffer then has one lemma for what a write makes of its entries. -/

namespace Sys2Proof.Machine

/-! ### A transaction on a named target (R156) -/

/-- At an aligned, mapped offset only READONLY and BUSY_REFUSED are left of the checks (R156). -/
theorem checkAccess_mapped {off : Offset} {t : Target} (ha : off.extractLsb' 0 2 = 0) (hm : addressMap off = some t)
    (isWrite : Bool) (s : State) :
    checkAccess isWrite off s =
      if isWrite && t.readonly then .error .readonly
      else if busy s && t.refusedWhileBusy isWrite then .error .busyRefused
      else .ok t := by
  simp [checkAccess, ha, hm]

/-- A read of a target that does not wait for the engine, or while idle, is performed. -/
theorem memRead_mapped {off : Offset} {t : Target} {s : State} (ha : off.extractLsb' 0 2 = 0)
    (hm : addressMap off = some t) (hb : busy s = false ∨ t.refusedWhileBusy false = false) :
    memRead off s = (readTarget t s, none) := by
  have allowed : (busy s && t.refusedWhileBusy false) = false := by rcases hb with h | h <;> simp [h]
  simp [memRead, checkAccess_mapped ha hm, allowed]

/-- A write of a writable target while idle is performed. -/
theorem memWrite_mapped {off : Offset} {t : Target} {s : State} (d : Word) (ha : off.extractLsb' 0 2 = 0)
    (hm : addressMap off = some t) (hr : t.readonly = false) (hb : busy s = false) :
    memWrite off d s = (writeTarget t d s, none) := by
  simp [memWrite, checkAccess_mapped ha hm, hr, hb]

/-- A write of a read-only target is answered READONLY, whatever the phase (R148). -/
theorem memWrite_readonly {off : Offset} {t : Target} (d : Word) (s : State) (ha : off.extractLsb' 0 2 = 0)
    (hm : addressMap off = some t) (hr : t.readonly = true) : memWrite off d s = (s, some .readonly) := by
  simp [memWrite, checkAccess_mapped ha hm, hr, refuseWrite]

/-! ### The offsets of the buffers -/

theorem inOffset_toNat {w : Nat} (hw : w < 48) : (inOffset w).toNat = 0x100 + 4 * w := offset_toNat _ (by omega)

theorem wbOffset_toNat {c k : Nat} (hc : c < 3) (hk : k < 64) : (wbOffset c k).toNat = 0x400 + 0x100 * c + 4 * k :=
  offset_toNat _ (by omega)

theorem outOffset_toNat {c k : Nat} (hc : c < 3) (hk : k < 64) : (outOffset c k).toNat = 0x800 + 0x100 * c + 4 * k :=
  offset_toNat _ (by omega)

theorem inOffset_aligned (w : Nat) : (inOffset w).extractLsb' 0 2 = 0 := offset_aligned _ (by omega)

theorem wbOffset_aligned (c k : Nat) : (wbOffset c k).extractLsb' 0 2 = 0 := offset_aligned _ (by omega)

theorem outOffset_aligned (c k : Nat) : (outOffset c k).extractLsb' 0 2 = 0 := offset_aligned _ (by omega)

/-! ### What a performed transaction reads and writes -/

/-- Bits 8b+7 : 8b of IN word w are `IN[4w + b]` (R57). -/
theorem readTarget_inWord_byte (s : State) (w : Nat) {b : Nat} (hb : b < 4) :
    (readTarget (.inWord w) s).extractLsb' (8 * b) 8 = inByte s (4 * w + b) := by
  rw [readTarget, packBytes_byte _ _ _ _ b hb]
  interval_cases b <;> rfl

/-- The bytes of the word written (R57). -/
theorem inByte_writeIn (s : State) (w : Nat) (d : Word) {b : Nat} (hb : b < 4) :
    inByte (writeIn w d s) (4 * w + b) = byteOf d b := by
  interval_cases b <;> simp [inByte, writeIn, Memory.read_write]

/-- A write of an IN word leaves the bytes of every other word. -/
theorem inByte_writeIn_other (s : State) {w a : Nat} (d : Word) (ha : a < 4 * w ∨ 4 * w + 4 ≤ a) :
    inByte (writeIn w d s) a = inByte s a := by
  simp only [inByte, writeIn]
  rw [Memory.read_write_other _ _ (by omega), Memory.read_write_other _ _ (by omega),
    Memory.read_write_other _ _ (by omega), Memory.read_write_other _ _ (by omega)]

/-- What a host write of entry n leaves in WB (R58). -/
theorem wbEntry_writeWb (s : State) (n : Nat) (d : Word) (m : Nat) :
    wbEntry (writeWb n d s) m = if m = n then d else wbEntry s m := by
  simp only [wbEntry, writeWb, Memory.read_write]
  split <;> rfl

/-- An OUT entry keeps its value when it is widened to a word (R59). -/
theorem toInt_readTarget_out (s : State) (n : Nat) : (readTarget (.out n) s).toInt = (outEntry s n).toInt :=
  BitVec.toInt_signExtend_of_le (by omega)

/-- The plane count that a CTRL write selects (R15). -/
theorem np_writeCtrl (s : State) (d : Word) : np (writeCtrl d s) = if d.getLsbD 0 then 1 else 3 := by
  rw [np, chan1, writeCtrl_ctrl, (ctrlMask_bits d).1]

/-- The tables that a CTRL write selects (R121). -/
theorem quantDivisor_writeCtrl (s : State) (d : Word) (c k : Nat) :
    quantDivisor (writeCtrl d s) c k = if d.getLsbD 1 then 1 else if c = 0 then luma k else chroma k := by
  rw [quantDivisor, qtab, writeCtrl_ctrl, (ctrlMask_bits d).2.1, unitQ]

/-! ### Repeated writes (R65) -/

theorem clearFlags_idempotent (d : Word) (s : State) : clearFlags d (clearFlags d s) = clearFlags d s := by
  simp +contextual [clearFlags]

theorem writeWb_idempotent (n : Nat) (d : Word) (s : State) : writeWb n d (writeWb n d s) = writeWb n d s := by
  simp only [writeWb, Memory.write_write_same]

/-- Each of the four bytes is unchanged by its second write, whatever the writes between. -/
theorem writeIn_idempotent (w : Nat) (d : Word) (s : State) : writeIn w d (writeIn w d s) = writeIn w d s := by
  have fixed (m : Memory Byte) (a : Nat) (v : Byte) : Memory.write (Memory.write m a v) a v = Memory.write m a v :=
    Memory.write_write_same m a v v
  simp only [writeIn]
  congr 1
  rw [Memory.write_eq_self_write _ (by omega) (Memory.write_eq_self_write _ (by omega)
      (Memory.write_eq_self_write _ (by omega) (fixed _ (4 * w) _))),
    Memory.write_eq_self_write _ (by omega) (Memory.write_eq_self_write _ (by omega) (fixed _ (4 * w + 1) _)),
    Memory.write_eq_self_write _ (by omega) (fixed _ (4 * w + 2) _), fixed]

/-- Every performed write but a CMD write is idempotent. -/
theorem writeTarget_idempotent {t : Target} (ht : t ≠ .cmd) (d : Word) (s : State) :
    writeTarget t d (writeTarget t d s) = writeTarget t d s := by
  cases t with
  | cmd => exact absurd rfl ht
  | status => exact clearFlags_idempotent d s
  | inWord w => exact writeIn_idempotent w d s
  | wb n => exact writeWb_idempotent n d s
  | id | ctrl | out _ => rfl

/-- The checks see BUSY only (R156). -/
theorem checkAccess_congr {s u : State} (h : busy u = busy s) (isWrite : Bool) (off : Offset) :
    checkAccess isWrite off u = checkAccess isWrite off s := by
  rw [checkAccess, checkAccess, h]

/-- A refused write to any offset but CMD changes nothing (R145). -/
theorem refuseWrite_of_ne_cmd {off : Offset} (ho : off ≠ 0x008#12) (e : BusError) (s : State) :
    refuseWrite e off s = s :=
  if_neg fun h => ho (addressMap_cmd h.2)

/-- A write to any offset but CMD, made twice, leaves the state and is answered as once (R65). -/
theorem memWrite_idempotent {off : Offset} (ho : off ≠ 0x008#12) (d : Word) (s : State) :
    memWrite off d (memWrite off d s).1 = memWrite off d s := by
  cases hc : checkAccess true off s with
  | error e =>
    have refused : memWrite off d s = (s, some e) := by simp [memWrite, hc, refuseWrite_of_ne_cmd ho]
    rw [refused, refused]
  | ok t =>
    have ht : t ≠ .cmd := by
      rintro rfl
      obtain ⟨-, hm, -⟩ := checkAccess_ok hc
      exact ho (addressMap_cmd hm)
    have again : checkAccess true off (writeTarget t d s) = .ok t := by
      rw [checkAccess_congr (busy_writeTarget s fun h => absurd h ht), hc]
    simp [memWrite, hc, again, writeTarget_idempotent ht]

/-- A host turn (R67). -/
theorem step_of_host {s : State} (h : nextTurn s = .host) : step s = .next (hostTurn (dropTurn s)) := by
  simp [step, h]

/-- A host turn whose line is a read only notes the answer (R65, R83). -/
theorem hostTurn_read {s : State} {off : Offset} {rest : List HostLine} (h : s.host = .read off :: rest) :
    hostTurn s = noteReply (.got off (memRead off s).1 (memRead off s).2 none) rest s := by
  rw [hostTurn, h]; rfl

/-! ### The window (R51) -/

theorem windowOffset_eq_some_iff (A : Nat) (off : Offset) :
    windowOffset A = some off ↔ A = Config.base + off.toNat := by
  have bound := off.isLt
  unfold windowOffset
  split
  · rw [Option.some.injEq, ← BitVec.toNat_inj, offset_toNat _ (by omega)]
    omega
  · simp only [reduceCtorEq, false_iff]
    omega

theorem windowOffset_eq_none_iff (A : Nat) :
    windowOffset A = none ↔ A < Config.base ∨ Config.base + 4096 ≤ A := by
  unfold windowOffset
  split <;> simp <;> omega

/-! ### The statements -/

/-- Settles O51: the offset names word w, whose four bytes are read and written in place. -/
theorem inWordTransactions : Obligations.InWordTransactions := by
  intro s w d idle hw
  have aligned := inOffset_aligned w
  have mapped := addressMap_inOffset w hw
  exact ⟨⟨_, memRead_mapped aligned mapped (.inl idle), fun _ hb => readTarget_inWord_byte s w hb⟩, inOffset_toNat hw,
    writeIn w d s, memWrite_mapped d aligned mapped rfl idle, fun _ hb => inByte_writeIn s w d hb,
    fun _ ha => inByte_writeIn_other s d ha, rfl⟩

/-- Settles O52: the offset names entry 64c + k, and the write sets that entry only. -/
theorem wbTransactions : Obligations.WbTransactions := by
  intro s c k d idle hc hk
  have aligned := wbOffset_aligned c k
  have mapped := addressMap_wbOffset c k hc hk
  refine ⟨wbOffset_toNat hc hk, ⟨_, memRead_mapped aligned mapped (.inl idle), rfl⟩, writeWb (64 * c + k) d s,
    memWrite_mapped d aligned mapped rfl idle, ?_, fun n hn => ?_, rfl⟩
  · rw [wbInt, wbEntry_writeWb, if_pos rfl]
  · rw [wbEntry_writeWb, if_neg hn]

/-- Settles O53: OUT is read through the sign extension, and READONLY is checked before BUSY. -/
theorem outTransactions : Obligations.OutTransactions := by
  intro s c k d hc hk
  have aligned := outOffset_aligned c k
  have mapped := addressMap_outOffset c k hc hk
  exact ⟨outOffset_toNat hc hk, fun idle => ⟨_, memRead_mapped aligned mapped (.inl idle), toInt_readTarget_out s _⟩,
    memWrite_readonly d s aligned mapped rfl⟩

/-- Settles O56. A second CMD write of CSC's word finds the engine busy with the first, and raises CMD_BUSY. -/
theorem readsAndRepeatedWrites : Obligations.ReadsAndRepeatedWrites := by
  refine ⟨fun s off rest hline hturn => ?_, fun s off d ho => memWrite_idempotent ho d s, State.reset, encode .csc, ?_⟩
  · have read := hostTurn_read (s := dropTurn s) hline
    exact ⟨_, by rw [step_of_host hturn, read], rfl⟩
  · have accepted : (memWrite 0x008#12 (encode .csc) State.reset).1 = accept .csc State.reset :=
      memWrite_cmd_of_legal rfl (decode_encode .csc)
    rw [accepted, memWrite_cmd_of_busy _ rfl]
    exact fun h => absurd (congrArg State.err h) (by decide)

/-- Settles O49: CTRL stores d through its mask, which passes the two bits that select planes and tables. -/
theorem ctrlReadAndWrite : Obligations.CtrlReadAndWrite := by
  intro s d idle
  rw [memWrite_ctrl d s idle]
  exact ⟨memRead_ctrl s idle, rfl, memRead_ctrl _ idle, np_writeCtrl s d, quantDivisor_writeCtrl s d⟩

/-- Settles O54: neither ID nor a CMD read waits for the engine. -/
theorem idAndCmdReads : Obligations.IdAndCmdReads := fun s d =>
  have idAligned : (0x000#12).extractLsb' 0 2 = 0 := by decide
  have idMapped : addressMap 0x000#12 = some .id := by decide
  have cmdMapped : addressMap 0x008#12 = some .cmd := by decide
  ⟨memRead_mapped idAligned idMapped (.inr rfl), memWrite_readonly d s idAligned idMapped rfl,
    memRead_mapped (by decide) cmdMapped (.inr rfl)⟩

/-- Settles O57: BASE is a multiple of the window's size, so an offset is the distance to it. -/
theorem windowDecoding : Obligations.WindowDecoding :=
  ⟨Nat.mul_mod_right 4096 Config.basePage, fun A => ⟨windowOffset_eq_some_iff A, windowOffset_eq_none_iff A⟩⟩

end Sys2Proof.Machine
end

section
/-! The encoding (R76 to R79, R85): which words are commands, what a CMD write makes of a word, and the CTRL word of a
configuration. A word decodes to a command exactly if it is that command's encoding, so the map of R77 is read off
`encode`. -/

namespace Sys2Proof

/-- A word decodes to a command exactly if it is the command's word (R77). -/
theorem decode_eq_ok_iff (d : Word) (i : Instr) : decode d = .ok i ↔ d = encode i :=
  ⟨fun h => (encode_of_decode h).symm, fun h => h ▸ decode_encode i⟩

/-- The decoder is total: a word is ILLEGAL exactly if no command is read from it (R78). -/
theorem decode_isError_iff_not_isOk (d : Word) : (∃ why, decode d = .error why) ↔ ¬ ∃ i, decode d = .ok i := by
  cases decode d <;> simp

/-- The illegal words, by value (R79). -/
theorem decode_isError_iff (d : Word) : (∃ why, decode d = .error why) ↔ d.toNat = 0 ∨ 6 ≤ d.toNat := by
  rw [decode_isError_iff_not_isOk, decode_isOk_iff, WellFormed.commandWord, WellFormed.reservedBitsClear,
    WellFormed.opcodeAssigned]
  omega

/-- With RSV = 0 the OP field selects the command (R76, R78). -/
theorem decode_of_opField {d : Word} {i : Instr} (hr : d.toNat / 16 = 0) (ho : d.toNat % 16 = (opcode i).toNat) :
    decode d = .ok i := by
  rw [decode_eq_ok_iff, ← BitVec.toNat_inj, encode_toNat]
  omega

/-- Settles O1: the legal words are the five encodings, and the illegal ones are all others. -/
theorem opcodeMapIsExact : Obligations.OpcodeMapIsExact := fun d =>
  have zero_iff : d.toNat = 0 ↔ d = 0x00000000#32 := BitVec.toNat_inj (y := 0#32)
  ⟨decode_eq_ok_iff d .csc, decode_eq_ok_iff d .lsh, decode_eq_ok_iff d .dct, decode_eq_ok_iff d .qnt,
    decode_eq_ok_iff d .run, (decode_isError_iff d).trans (or_congr_left zero_iff)⟩

end Sys2Proof

namespace Sys2Proof.Machine

/-! ### A CMD write (R78, R151, R152) -/

/-- What a CMD write is answered depends on the phase alone (R151, R152). -/
theorem memWrite_cmd_resp (d : Word) (s : State) :
    (memWrite 0x008#12 d s).2 = if busy s then some .busyRefused else none := by
  rw [memWrite_cmd]; split <;> rfl

/-- The answer to a CMD write while idle is OK, whether the word is legal or not (R151). -/
theorem memWrite_cmd_resp_of_idle {s : State} (d : Word) (idle : busy s = false) :
    (memWrite 0x008#12 d s).2 = none := by
  rw [memWrite_cmd_resp, idle]; rfl

/-- Settles O3: OP selects the command where RSV is 0, and each of the three outcomes of a CMD write has its answer. -/
theorem commandWriteFollowsDecode : Obligations.CommandWriteFollowsDecode := by
  have illegal (s : State) (d : Word) (idle : busy s = false) (hd : ∃ why, decode d = .error why) :
      memWrite 0x008#12 d s = ({ s with err := true, errcode := 1 }, none) :=
    hd.elim fun _ hd => Prod.ext (memWrite_cmd_of_illegal idle hd) (memWrite_cmd_resp_of_idle d idle)
  refine ⟨fun d hr => ?_, fun d hr => ?_, fun s d => ⟨fun hb => ?_, fun idle why hd => ?_, fun idle op hd => ?_,
    fun idle hd => ?_⟩⟩
  · exact (decode_isError_iff d).2 (by omega)
  · exact ⟨decode_of_opField (i := .csc) hr, decode_of_opField (i := .lsh) hr, decode_of_opField (i := .dct) hr,
      decode_of_opField (i := .qnt) hr, decode_of_opField (i := .run) hr,
      fun ho => (decode_isError_iff d).2 (by omega)⟩
  · exact Prod.ext (memWrite_cmd_of_busy d hb) (by rw [memWrite_cmd_resp, if_pos hb])
  · exact illegal s d idle ⟨why, hd⟩
  · exact Prod.ext (memWrite_cmd_of_legal idle hd) (memWrite_cmd_resp_of_idle d idle)
  · refine illegal s d idle ((decode_isError_iff d).2 ?_)
    rcases hd with rfl | ⟨h6, -⟩ | hr
    · exact .inl rfl
    · exact .inr h6
    · omega

/-! ### The CTRL word of a configuration (R85) -/

theorem ctrlWord_toNat (a b c d : Bool) :
    (ctrlWord a b c d).toNat = a.toNat + 2 * b.toNat + 256 * c.toNat + 512 * d.toNat := by
  decide +revert

/-- The four bits of a configuration's word (R22, R85). -/
theorem ctrlWord_bits (a b c d : Bool) :
    (ctrlWord a b c d).getLsbD 0 = a ∧ (ctrlWord a b c d).getLsbD 1 = b ∧ (ctrlWord a b c d).getLsbD 8 = c ∧
      (ctrlWord a b c d).getLsbD 9 = d := by
  decide +revert

/-- A configuration's word sets no reserved bit. -/
theorem ctrlWord_and_mask (a b c d : Bool) : ctrlWord a b c d &&& 0x00000303#32 = ctrlWord a b c d := by
  decide +revert

/-- A mask drops what is written outside it. -/
theorem or_and_not_and_mask {w m : Word} (reserved : Word) (hw : w &&& m = w) :
    (w ||| (reserved &&& ~~~m)) &&& m = w := by
  rw [BitVec.and_or_distrib_right, hw, BitVec.and_assoc, BitVec.not_and_self]
  simp

/-- Settles O50: the mask of a CTRL write drops the reserved bits, and the word's own bits pass it. -/
theorem ctrlWordSelectsConfiguration : Obligations.CtrlWordSelectsConfiguration := by
  intro s a b c d reserved idle
  have stored : (writeCtrl (ctrlWord a b c d ||| (reserved &&& ~~~0x00000303#32)) s).ctrl = ctrlWord a b c d :=
    or_and_not_and_mask reserved (ctrlWord_and_mask a b c d)
  obtain ⟨bit0, bit1, bit8, bit9⟩ := ctrlWord_bits a b c d
  refine ⟨ctrlWord_toNat a b c d, _, memWrite_ctrl _ s idle, stored, ?_, ?_, ?_, ?_⟩
  · rw [chan1, stored, bit0]
  · rw [qtab, stored, bit1]
  · rw [ieDone, stored, bit8]
  · rw [ieErr, stored, bit9]

end Sys2Proof.Machine
end

section
/-! The color-space converter and the level shifter (R90 to R99), completion to completion: the exact value each leaves at a
position of a processed plane, its range, and their common frame. The corner cases are these values at the inputs named. -/

namespace Sys2Proof.Machine

variable {s t : State} {c k : Nat}

/-! ### The processed planes (R15) -/

theorem np_of_rgb (rgb : chan1 s = false) : np s = 3 := by simp [np, rgb]

theorem np_of_grey (grey : chan1 s = true) : np s = 1 := by simp [np, grey]

/-- Planes 1 and 2 are processed in three-channel mode only. -/
theorem rgb_of_chroma_plane (hc : c < np s) (h0 : c ≠ 0) : chan1 s = false := by
  by_contra grey
  rw [np_of_grey (by simpa using grey)] at hc
  omega

/-! ### The frame (R46, R97) -/

theorem exec_keepsTranspose {i : Instr} (h : exec i s = .next t) (hi : i = .csc ∨ i = .lsh) :
    t.transpose = s.transpose := by
  rcases hi with rfl | rfl <;> cases h <;> rfl

/-- CSC and LSH complete with RANGE8 = 0 and write WB planes 0..NP-1 only. -/
theorem exec_csc_lsh_frame {i : Instr} (h : exec i s = .next t) (hi : i = .csc ∨ i = .lsh) :
    CompletedWith false s t ∧ KeepsIn s t ∧ KeepsWbFrom (64 * np s) s t ∧ KeepsOutFrom 0 s t ∧
      t.transpose = s.transpose := by
  obtain ⟨t', h', completed, keepsIn⟩ := exec_completes i s
  obtain rfl : t' = t := by rw [h] at h'; exact (Host.Outcome.next.inj h').symm
  have other : i = .csc ∨ i = .lsh ∨ i = .dct := hi.imp_right .inl
  have notQnt : i ≠ .qnt := by rcases hi with rfl | rfl <;> decide
  rw [exec_range8_eq_false h other] at completed
  obtain ⟨-, keepsWb⟩ := exec_writesWb h notQnt
  exact ⟨completed, keepsIn, keepsWb, exec_keepsOut h other, exec_keepsTranspose h hi⟩

/-! ### What CSC leaves (R90 to R93) -/

theorem exec_csc_wbInt (h : exec .csc s = .next t) (hc : c < np s) (hk : k < 64) : wbInt t c k = cscValue s c k := by
  cases h; exact wbInt_csc s hc hk

/-- The three planes at a position, from the pixel's bytes (R90). -/
theorem exec_csc_pixel (h : exec .csc s = .next t) (rgb : chan1 s = false) (hk : k < 64) {r g b : Byte}
    (hr : inByte s (3 * k) = r) (hg : inByte s (3 * k + 1) = g) (hb : inByte s (3 * k + 2) = b) :
    wbInt t 0 k = lumaOf r.toNat g.toNat b.toNat ∧ wbInt t 1 k = cbOf r.toNat g.toNat b.toNat ∧
      wbInt t 2 k = crOf r.toNat g.toNat b.toNat := by
  subst hr hg hb
  have value (c : Nat) (hc : c < 3) : wbInt t c k = cscValue s c k := exec_csc_wbInt h (by rwa [np_of_rgb rgb]) hk
  refine ⟨(value 0 (by decide)).trans ?_, (value 1 (by decide)).trans ?_, (value 2 (by decide)).trans ?_⟩ <;>
    simp [cscValue, rgb, rgbSample]

/-- The luma plane in single-channel mode (R92). -/
theorem exec_csc_grey (h : exec .csc s = .next t) (grey : chan1 s = true) (hk : k < 64) :
    wbInt t 0 k = 10000 * ((inByte s k).toNat : Int) := by
  rw [exec_csc_wbInt h (np_pos s) hk, cscValue, if_pos grey, greySample]

/-- The ranges of R93 in the processed planes. -/
theorem exec_csc_range (h : exec .csc s = .next t) (hc : c < np s) (hk : k < 64) :
    0 ≤ wbInt t c k ∧ wbInt t c k ≤ 2555000 ∧ (c = 0 → wbInt t c k ≤ 2550000) ∧ (c ≠ 0 → 5000 ≤ wbInt t c k) := by
  obtain ⟨lo, hi, luma, chroma, -⟩ := cscValue_range s c k
  rw [exec_csc_wbInt h hc hk]
  exact ⟨lo, hi, luma, fun h0 => chroma (rgb_of_chroma_plane hc h0) h0⟩

/-! A grey pixel: the luma coefficients of R90 sum to 10000, and those of each chroma plane cancel (R90, R94). -/

theorem lumaOf_grey (x : Int) : lumaOf x x x = 10000 * x := by unfold lumaOf; ring

theorem cbOf_grey (x : Int) : cbOf x x x = 1280000 := by unfold cbOf; ring

theorem crOf_grey (x : Int) : crOf x x x = 1280000 := by unfold crOf; ring

theorem exec_csc_greyPixel (h : exec .csc s = .next t) (rgb : chan1 s = false) (hk : k < 64) {x : Byte}
    (hr : inByte s (3 * k) = x) (hg : inByte s (3 * k + 1) = x) (hb : inByte s (3 * k + 2) = x) :
    wbInt t 0 k = 10000 * (x.toNat : Int) ∧ wbInt t 1 k = 1280000 ∧ wbInt t 2 k = 1280000 := by
  obtain ⟨y, cb, cr⟩ := exec_csc_pixel h rgb hk hr hg hb
  exact ⟨y.trans (lumaOf_grey _), cb.trans (cbOf_grey _), cr.trans (crOf_grey _)⟩

/-! ### What LSH leaves (R97, R98) -/

/-- Below the 32-bit range the store adds 2^32 (R10). -/
theorem wrap32_of_lt {x : Int} (lo : -2147483648 - 2 ^ 32 ≤ x) (hi : x < -2147483648) : wrap32 x = x + 2 ^ 32 := by
  obtain ⟨q, hq, h1, h2⟩ := wrap32_cases x
  omega

theorem exec_lsh_wbInt (h : exec .lsh s = .next t) (hc : c < np s) (hk : k < 64) :
    wbInt t c k = wrap32 (wbInt s c k - 1280000) := by
  cases h; exact wbInt_lsh s hc hk

/-- From -2^31 + 1280000 on, the store is exact. -/
theorem exec_lsh_exact (h : exec .lsh s = .next t) (hc : c < np s) (hk : k < 64) (lo : -2146203648 ≤ wbInt s c k) :
    wbInt t c k = wbInt s c k - 1280000 := by
  obtain ⟨-, hi⟩ := wbInt_range s c k
  rw [exec_lsh_wbInt h hc hk, wrap32_eq (by omega) (by omega)]

/-- Below -2^31 + 1280000 it wraps once. -/
theorem exec_lsh_wraps (h : exec .lsh s = .next t) (hc : c < np s) (hk : k < 64) (hi : wbInt s c k < -2146203648) :
    wbInt t c k = wbInt s c k - 1280000 + 2 ^ 32 := by
  obtain ⟨lo, -⟩ := wbInt_range s c k
  rw [exec_lsh_wbInt h hc hk, wrap32_of_lt (by omega) (by omega)]

theorem exec_lsh_neutral (h : exec .lsh s = .next t) (hc : c < np s) (hk : k < 64) (neutral : wbInt s c k = 1280000) :
    wbInt t c k = 0 := by
  rw [exec_lsh_exact h hc hk (by omega), neutral, sub_self]

/-- CSC and LSH keep CTRL, and with it the plane count. -/
theorem np_of_exec {i : Instr} (h : exec i s = .next t) (hi : i = .csc ∨ i = .lsh) : np t = np s := by
  obtain ⟨⟨-, -, -, ctrl, -⟩, -⟩ := exec_csc_lsh_frame h hi
  exact np_of_ctrl_eq ctrl

end Sys2Proof.Machine
end

section
/-! The statements on CSC and LSH. -/

namespace Sys2Proof.Machine

/-- Settles O15: the three values are R90's formulas of the pixel, and the ranges are those of R93. -/
theorem cscConvertsRgb : Obligations.CscConvertsRgb := by
  intro s rgb
  have planes := np_of_rgb rgb
  refine ⟨_, rfl, fun k hk R G B hR hG hB => ?_, ?_⟩
  · obtain ⟨y, cb, cr⟩ := exec_csc_pixel rfl rgb hk rfl rfl rfl
    rw [← hR, ← hG, ← hB] at y cb cr
    refine ⟨y, cb, cr, fun c hc => ?_, ?_, ?_⟩
    · obtain ⟨lo, hi, -⟩ := exec_csc_range (s := s) rfl (planes ▸ hc) hk
      exact ⟨lo, hi⟩
    · rintro rfl rfl
      exact ⟨cb.trans (cbOf_grey R), cr.trans (crOf_grey R)⟩
    · rintro rfl rfl rfl
      exact ⟨y, cb, cr⟩
  · have frame := exec_csc_lsh_frame (s := s) (i := .csc) rfl (.inl rfl)
    rwa [planes] at frame

/-- Settles O16: one plane is processed, so the frame starts at entry 64. -/
theorem cscTakesGreyAsLuma : Obligations.CscTakesGreyAsLuma := by
  intro s grey
  have frame := exec_csc_lsh_frame (s := s) (i := .csc) rfl (.inl rfl)
  rw [np_of_grey grey] at frame
  refine ⟨_, rfl, fun k => exec_csc_grey rfl grey, fun k hk sample => ?_, frame⟩
  rw [exec_csc_grey rfl grey hk, sample]
  rfl

/-- Settles O17: each named input is put into the formula whose bound it reaches. -/
theorem cscRangesAreTight : Obligations.CscRangesAreTight := by
  refine ⟨fun s => ⟨_, rfl, fun k hk => ?_⟩, fun s rgb => ⟨_, rfl, fun k hk r g b hr hg hb => ?_⟩,
    fun s grey => ⟨_, rfl, fun k hk => ?_⟩⟩
  · have range (c : Nat) (hc : c < np s) := exec_csc_range (s := s) rfl hc hk
    refine ⟨?_, fun rgb => ?_, fun c hc => ?_⟩
    · obtain ⟨lo, -, hi, -⟩ := range 0 (np_pos s)
      exact ⟨lo, hi rfl⟩
    · obtain ⟨-, cbHi, -, cbLo⟩ := range 1 (by rw [np_of_rgb rgb]; decide)
      obtain ⟨-, crHi, -, crLo⟩ := range 2 (by rw [np_of_rgb rgb]; decide)
      exact ⟨⟨cbLo (by decide), cbHi⟩, crLo (by decide), crHi⟩
    · obtain ⟨-, hi, -⟩ := range c hc
      omega
  · obtain ⟨y, cb, cr⟩ := exec_csc_pixel rfl rgb hk hr.symm hg.symm hb.symm
    exact ⟨fun e => y.trans (by cases e; decide), fun e => y.trans (by cases e; decide),
      fun e => cb.trans (by cases e; decide), fun e => cb.trans (by cases e; decide),
      fun e => cr.trans (by cases e; decide), fun e => cr.trans (by cases e; decide)⟩
  · have luma := exec_csc_grey (s := s) rfl grey hk
    exact ⟨fun sample => luma.trans (by rw [sample]; rfl), fun sample => luma.trans (by rw [sample]; rfl)⟩

/-- Settles O18: white and black are grey pixels, with luma 10000 * 255 and 0. -/
theorem whiteAndBlackAreExact : Obligations.WhiteAndBlackAreExact := fun s rgb =>
  have pixel (k : Nat) (hk : k < 64) (x : Byte) (hx : ∀ c < 3, inByte s (3 * k + c) = x) :=
    exec_csc_greyPixel (s := s) rfl rgb hk (hx 0 (by decide)) (hx 1 (by decide)) (hx 2 (by decide))
  ⟨_, rfl, fun k hk => ⟨pixel k hk 255, pixel k hk 0⟩⟩

/-- Settles O19: neither named value is near the lower end, where the store wraps. -/
theorem lshSubtractsTheBias : Obligations.LshSubtractsTheBias := by
  refine fun s => ⟨_, rfl, fun c hc k hk => ⟨exec_lsh_wbInt rfl hc hk, fun white => ?_, exec_lsh_neutral rfl hc hk⟩,
    exec_csc_lsh_frame rfl (.inr rfl)⟩
  rw [exec_lsh_exact rfl hc hk (by omega), white]
  rfl

/-- Settles O20: the exact store twice; and CSC leaves no value where the store wraps. -/
theorem lshCornerCases : Obligations.LshCornerCases := by
  refine fun s => ⟨_, rfl, fun c hc k hk => ?_, ⟨_, rfl, fun c hc k hk lo => ?_⟩,
    ⟨_, _, rfl, rfl, fun c hc k hk => ?_⟩⟩
  · have wraps := exec_lsh_wraps (s := s) rfl hc hk
    exact ⟨exec_lsh_exact rfl hc hk, wraps, fun e => by rw [wraps (by omega), e]; rfl,
      fun e => by rw [wraps (by omega), e]; rfl⟩
  · have once := exec_lsh_exact (s := s) rfl hc hk (by omega)
    rw [exec_lsh_exact rfl (by rwa [np_of_exec (s := s) (i := .lsh) rfl (.inr rfl)]) hk (by omega), once]
    ring
  · obtain ⟨lo, hi, lumaHi, chromaLo⟩ := exec_csc_range (s := s) rfl hc hk
    have shifted := exec_lsh_exact rfl (by rwa [np_of_exec (s := s) (i := .csc) rfl (.inl rfl)]) hk (by omega)
    exact ⟨shifted, fun h0 => by have := lumaHi h0; omega, fun h0 => by have := chromaLo h0; omega⟩

/-- Settles O21: 1280000 shifts to 0, and it is the chroma of every grey pixel. -/
theorem neutralChromaShiftsToZero : Obligations.NeutralChromaShiftsToZero := by
  refine ⟨fun s c hc neutral => ⟨_, rfl, fun k hk => exec_lsh_neutral rfl hc hk (neutral k hk)⟩,
    fun s rgb grey => ⟨_, _, rfl, rfl, fun k hk => ?_⟩⟩
  obtain ⟨hrg, hgb⟩ := grey k hk
  obtain ⟨-, cb, cr⟩ := exec_csc_greyPixel rfl rgb hk (hrg.trans hgb) hgb rfl
  have planes : np (complete false (performCsc s)) = 3 := np_of_rgb rgb
  exact ⟨exec_lsh_neutral rfl (by rw [planes]; decide) hk cb, exec_lsh_neutral rfl (by rw [planes]; decide) hk cr⟩

end Sys2Proof.Machine
end

section
/-! The DCT engine (R105 to R117): each entry of the two passes as a sum over a row or a column, the inputs whose transform
is exact, and the size of every accumulator. -/

namespace Sys2Proof.Machine

/-! ### The entries of the two passes (R108, R109) -/

theorem rowPass_entry (S : List Int) {i v : Nat} (hi : i < 8) (hv : v < 8) :
    (rowPass S).getD (8 * i + v) 0 = rndShr (∑ j ∈ Finset.range 8, S.getD (8 * i + j) 0 * cosK v j) 14 := by
  rw [rowPass_getD S (by omega), sum8_eq_sum, show (8 * i + v) / 8 = i by omega, show (8 * i + v) % 8 = v by omega]

theorem dctPlane_entry (S : List Int) {u v : Nat} (hu : u < 8) (hv : v < 8) :
    (dctPlane S).getD (8 * u + v) 0 =
      rndShr (∑ i ∈ Finset.range 8, cosK u i * (rowPass S).getD (8 * i + v) 0) 14 := by
  rw [dctPlane, colPass_getD _ (by omega), sum8_eq_sum, show (8 * u + v) / 8 = u by omega,
    show (8 * u + v) % 8 = v by omega]

/-- A flat position is a row and a column (R14). -/
theorem exists_row_column {n : Nat} (hn : n < 64) : ∃ u < 8, ∃ v < 8, n = 8 * u + v :=
  ⟨n / 8, by omega, n % 8, by omega, by omega⟩

/-! ### The exact rows of the ROM (R113) -/

/-- The signs of rows 0 and 4 of the ROM, whose entries are ±2^14. -/
def romSign (u i : Nat) : Int := cosK u i / 16384

theorem cosK_eq_romSign : ∀ u ∈ [0, 4], ∀ i < 8, cosK u i = 16384 * romSign u i := by decide

theorem lt_of_exact_row {u : Nat} (hu : u ∈ [0, 4]) : u < 8 := by
  rcases List.mem_pair.1 hu with rfl | rfl <;> decide

/-- A pass through an exact row rounds nothing. -/
theorem rndShr_exact_row (f : Nat → Int) {u : Nat} (hu : u ∈ [0, 4]) :
    rndShr (∑ i ∈ Finset.range 8, cosK u i * f i) 14 = ∑ i ∈ Finset.range 8, romSign u i * f i := by
  rw [← rndShr_exact (∑ i ∈ Finset.range 8, romSign u i * f i), Finset.mul_sum]
  congr 1
  exact Finset.sum_congr rfl fun i hi => by rw [cosK_eq_romSign u hu i (Finset.mem_range.1 hi), mul_assoc]

/-- T is the exact double sum where both rows are exact. -/
theorem dctPlane_exact (S : List Int) {u v : Nat} (hu : u ∈ [0, 4]) (hv : v ∈ [0, 4]) :
    (dctPlane S).getD (8 * u + v) 0 =
      ∑ i ∈ Finset.range 8, ∑ j ∈ Finset.range 8, romSign u i * romSign v j * S.getD (8 * i + j) 0 := by
  rw [dctPlane_entry S (lt_of_exact_row hu) (lt_of_exact_row hv), rndShr_exact_row _ hu]
  refine Finset.sum_congr rfl fun i hi => ?_
  rw [rowPass_entry S (Finset.mem_range.1 hi) (lt_of_exact_row hv)]
  simp only [mul_comm (S.getD _ _), rndShr_exact_row _ hv, Finset.mul_sum, mul_assoc]

/-- The four exact positions in flat order. -/
theorem exists_exact_rows : ∀ n ∈ [0, 4, 32, 36], ∃ u ∈ [0, 4], ∃ v ∈ [0, 4], n = 8 * u + v := by decide

/-- T is additive where it is exact (R115). -/
theorem dctPlane_add_exact {S S₁ S₂ : List Int} (hS : ∀ k < 64, S.getD k 0 = S₁.getD k 0 + S₂.getD k 0) {n : Nat}
    (hn : n ∈ [0, 4, 32, 36]) : (dctPlane S).getD n 0 = (dctPlane S₁).getD n 0 + (dctPlane S₂).getD n 0 := by
  obtain ⟨u, hu, v, hv, rfl⟩ := exists_exact_rows n hn
  simp only [dctPlane_exact _ hu hv, ← Finset.sum_add_distrib]
  refine Finset.sum_congr rfl fun i hi => Finset.sum_congr rfl fun j hj => ?_
  rw [Finset.mem_range] at hi hj
  rw [hS _ (by omega), mul_add]

/-! ### A constant plane (R114) -/

/-- A row of the ROM sums to 2^17 or to 0 (R38), so a pass takes a constant to 8 times it, or to 0. -/
theorem rndShr_constant_row (x : Int) {u : Nat} (hu : u < 8) :
    rndShr (∑ i ∈ Finset.range 8, cosK u i * x) 14 = if u = 0 then 8 * x else 0 := by
  have rowSum : ∀ u < 8, ∑ i ∈ Finset.range 8, cosK u i = if u = 0 then 131072 else 0 := by decide
  rw [← Finset.sum_mul, rowSum u hu, ← rndShr_exact (if u = 0 then 8 * x else 0)]
  congr 1
  split <;> ring

/-- The DCT of a constant plane, which the row pass leaves constant along each column. -/
theorem dctPlane_constant {S : List Int} {S0 : Int} (hS : ∀ k < 64, S.getD k 0 = S0) {n : Nat} (hn : n < 64) :
    (dctPlane S).getD n 0 = if n = 0 then 64 * S0 else 0 := by
  obtain ⟨u, hu, v, hv, rfl⟩ := exists_row_column hn
  have row : ∀ i ∈ Finset.range 8, cosK u i * (rowPass S).getD (8 * i + v) 0 =
      cosK u i * if v = 0 then 8 * S0 else 0 := by
    intro i hi
    rw [Finset.mem_range] at hi
    rw [rowPass_entry S hi hv, ← rndShr_constant_row S0 hv]
    congr 2
    exact Finset.sum_congr rfl fun j hj => by
      rw [Finset.mem_range] at hj
      rw [hS _ (by omega), mul_comm]
  rw [dctPlane_entry S hu hv, Finset.sum_congr rfl row, rndShr_constant_row _ hu]
  split_ifs <;> omega

/-! ### An impulse (R116) -/

/-- The row pass spreads an impulse at position 0 over row 0. -/
theorem rowPass_impulse {S : List Int} {a : Int} (hS : ∀ k < 64, S.getD k 0 = if k = 0 then a else 0) {i v : Nat}
    (hi : i < 8) (hv : v < 8) :
    (rowPass S).getD (8 * i + v) 0 = if i = 0 then rndShr (a * cosK v 0) 14 else 0 := by
  have term : ∀ j ∈ Finset.range 8, S.getD (8 * i + j) 0 * cosK v j =
      if j = 0 then (if i = 0 then a * cosK v 0 else 0) else 0 := by
    intro j hj
    rw [Finset.mem_range] at hj
    rw [hS _ (by omega)]
    by_cases h : i = 0 <;> by_cases h' : j = 0 <;> simp [h, h']
  rw [rowPass_entry S hi hv, Finset.sum_congr rfl term, Finset.sum_ite_eq', if_pos (by decide)]
  split
  · rfl
  · exact rndShr_zero

/-- The DCT of an impulse at position 0: one term of each sum is left. -/
theorem dctPlane_impulse {S : List Int} {a : Int} (hS : ∀ k < 64, S.getD k 0 = if k = 0 then a else 0) {u v : Nat}
    (hu : u < 8) (hv : v < 8) :
    (dctPlane S).getD (8 * u + v) 0 = rndShr (cosK u 0 * rndShr (a * cosK v 0) 14) 14 := by
  have term : ∀ i ∈ Finset.range 8, cosK u i * (rowPass S).getD (8 * i + v) 0 =
      if i = 0 then cosK u 0 * rndShr (a * cosK v 0) 14 else 0 := by
    intro i hi
    rw [rowPass_impulse hS (Finset.mem_range.1 hi) hv]
    split
    · subst i; rfl
    · exact mul_zero _
  rw [dctPlane_entry S hu hv, Finset.sum_congr rfl term, Finset.sum_ite_eq', if_pos (by decide)]

/-- The plane with a at position 0 and 0 elsewhere. -/
def impulse (a : Int) : List Int := a :: List.replicate 63 0

theorem impulse_length (a : Int) : (impulse a).length = 64 := by simp [impulse]

theorem impulse_getD (a : Int) (k : Nat) : (impulse a).getD k 0 = if k = 0 then a else 0 := by
  cases k with
  | zero => rfl
  | succ k =>
    rw [impulse, List.getD_cons_succ, List.getD_eq_getElem?_getD, List.getElem?_getD_replicate_default_eq,
      if_neg k.succ_ne_zero]

/-- Doubling an impulse of 35 or of 43 does not double T, at each position that is not exact: the roundings differ. -/
theorem rndShr_double_impulse_ne : ∀ u < 8, ∀ v < 8, 8 * u + v ∉ [0, 4, 32, 36] → ∃ a ∈ [(35 : Int), 43],
    rndShr (cosK u 0 * rndShr ((a + a) * cosK v 0) 14) 14 ≠
      rndShr (cosK u 0 * rndShr (a * cosK v 0) 14) 14 + rndShr (cosK u 0 * rndShr (a * cosK v 0) 14) 14 := by
  decide

/-! ### Oddness (R115) -/

theorem rowPass_neg {S S' : List Int} (hS : ∀ k < 64, S'.getD k 0 = -S.getD k 0) {i v : Nat} (hi : i < 8) (hv : v < 8) :
    (rowPass S').getD (8 * i + v) 0 = -(rowPass S).getD (8 * i + v) 0 := by
  rw [rowPass_entry S' hi hv, rowPass_entry S hi hv, ← rndShr_neg _ 14 (by decide), ← Finset.sum_neg_distrib]
  congr 1
  refine Finset.sum_congr rfl fun j hj => ?_
  rw [Finset.mem_range] at hj
  rw [hS _ (by omega), neg_mul]

theorem dctPlane_neg {S S' : List Int} (hS : ∀ k < 64, S'.getD k 0 = -S.getD k 0) {n : Nat} (hn : n < 64) :
    (dctPlane S').getD n 0 = -(dctPlane S).getD n 0 := by
  obtain ⟨u, hu, v, hv, rfl⟩ := exists_row_column hn
  rw [dctPlane_entry S' hu hv, dctPlane_entry S hu hv, ← rndShr_neg _ 14 (by decide), ← Finset.sum_neg_distrib]
  congr 1
  refine Finset.sum_congr rfl fun i hi => ?_
  rw [rowPass_neg hS (Finset.mem_range.1 hi) hv, mul_neg]

/-- The 32-bit store keeps a negation, but for -2^31, its own negation modulo 2^32 (R10). -/
theorem wrap32_neg (x : Int) :
    wrap32 (-x) = -wrap32 x ∨ (wrap32 x = -2147483648 ∧ wrap32 (-x) = -2147483648) := by
  obtain ⟨p, hp, lo, hi⟩ := wrap32_cases x
  obtain ⟨q, hq, lo', hi'⟩ := wrap32_cases (-x)
  omega

/-! ### The accumulators (R110) -/

/-- Every partial sum of an accumulation is bounded by the largest factor times the absolute sum of the others. -/
theorem abs_partial_sum_le {R : Type*} [CommRing R] [LinearOrder R] [IsStrictOrderedRing R] {f g : Nat → R} {M : R}
    (hf : ∀ j < 8, |f j| ≤ M) {m : Nat} (hm : m ≤ 8) :
    |∑ j ∈ Finset.range m, f j * g j| ≤ M * ∑ j ∈ Finset.range 8, |g j| := by
  have nonneg : 0 ≤ M := (abs_nonneg _).trans (hf 0 (by decide))
  calc |∑ j ∈ Finset.range m, f j * g j|
    _ ≤ ∑ j ∈ Finset.range m, |f j * g j| := Finset.abs_sum_le_sum_abs _ _
    _ ≤ ∑ j ∈ Finset.range m, M * |g j| := by
      refine Finset.sum_le_sum fun j hj => ?_
      rw [Finset.mem_range] at hj
      rw [abs_mul]
      exact mul_le_mul_of_nonneg_right (hf j (by omega)) (abs_nonneg _)
    _ ≤ ∑ j ∈ Finset.range 8, M * |g j| :=
      Finset.sum_le_sum_of_subset_of_nonneg (Finset.range_mono hm) fun j _ _ => mul_nonneg nonneg (abs_nonneg _)
    _ = M * ∑ j ∈ Finset.range 8, |g j| := (Finset.mul_sum ..).symm

theorem sum_abs_cosK_le {u : Nat} (hu : u < 8) : ∑ j ∈ Finset.range 8, |cosK u j| ≤ 131072 := by
  rw [← sum8_eq_sum fun j => |cosK u j|]
  exact cosK_row_sum_le u hu

/-- A partial sum of either pass, whose other factor is a row of the ROM. -/
theorem abs_partial_sum_cosK_le {f : Nat → Int} {M : Int} (hf : ∀ j < 8, |f j| ≤ M) {m u : Nat} (hm : m ≤ 8)
    (hu : u < 8) : |∑ j ∈ Finset.range m, f j * cosK u j| ≤ 131072 * M := by
  have nonneg : 0 ≤ M := (abs_nonneg _).trans (hf 0 (by decide))
  calc |∑ j ∈ Finset.range m, f j * cosK u j|
    _ ≤ M * ∑ j ∈ Finset.range 8, |cosK u j| := abs_partial_sum_le hf hm
    _ ≤ M * 131072 := mul_le_mul_of_nonneg_left (sum_abs_cosK_le hu) nonneg
    _ = 131072 * M := mul_comm _ _

theorem abs_wbInt_le (s : State) (c k : Nat) : |wbInt s c k| ≤ 2147483648 := by
  obtain ⟨lo, hi⟩ := wbInt_range s c k
  exact abs_le.2 ⟨lo, by omega⟩

theorem abs_rowPass_wbPlane_le (s : State) (c : Nat) {n : Nat} (hn : n < 64) :
    |(rowPass (wbPlane s c)).getD n 0| ≤ 17179869184 :=
  rowPass_abs_le _ 2147483648 (fun k hk => by rw [wbPlane_getD s c hk]; exact abs_wbInt_le s c k) hn

end Sys2Proof.Machine
end

section
/-! The statements on the DCT command (R105 to R117). -/

namespace Sys2Proof.Machine

variable {s t : State} {c k : Nat}

/-! ### What DCT leaves (R105, R111) -/

theorem exec_dct_wbInt (h : exec .dct s = .next t) (hc : c < np s) (hk : k < 64) :
    wbInt t c k = wrap32 ((dctPlane (wbPlane s c)).getD k 0) := by
  cases h; exact wbInt_dct s hc hk

/-- A plane bounded by 2^25 - 1 is transformed without a wrap (R111). -/
theorem exec_dct_exact (h : exec .dct s = .next t) (hc : c < np s) {M : Int} (hM : M ≤ 33554431)
    (hS : ∀ k < 64, |wbInt s c k| ≤ M) (hk : k < 64) :
    wbInt t c k = (dctPlane (wbPlane s c)).getD k 0 ∧ |wbInt t c k| ≤ 64 * M := by
  have grown : |(dctPlane (wbPlane s c)).getD k 0| ≤ 64 * M :=
    dctPlane_abs_le _ M (fun j hj => by rw [wbPlane_getD s c hj]; exact hS j hj) hk
  obtain ⟨lo, hi⟩ := abs_le.1 grown
  rw [exec_dct_wbInt h hc hk, wrap32_eq (by omega) (by omega)]
  exact ⟨rfl, grown⟩

/-- A constant plane leaves 64 times its constant at position 0, through the store (R114). -/
theorem exec_dct_constant (h : exec .dct s = .next t) (hc : c < np s) {S0 : Int} (hS : ∀ k < 64, wbInt s c k = S0)
    (hk : k < 64) : wbInt t c k = wrap32 (if k = 0 then 64 * S0 else 0) := by
  rw [exec_dct_wbInt h hc hk, dctPlane_constant (S0 := S0) (fun j hj => by rw [wbPlane_getD s c hj, hS j hj]) hk]

/-- DCT completes with RANGE8 = 0 and writes WB planes 0..NP-1 only. -/
theorem exec_dct_frame (h : exec .dct s = .next t) :
    CompletedWith false s t ∧ KeepsIn s t ∧ KeepsWbFrom (64 * np s) s t ∧ KeepsOutFrom 0 s t := by
  obtain ⟨t', h', completed, keepsIn⟩ := exec_completes .dct s
  obtain rfl : t' = t := by rw [h] at h'; exact (Host.Outcome.next.inj h').symm
  rw [exec_range8_eq_false h (.inr (.inr rfl))] at completed
  obtain ⟨-, keepsWb⟩ := exec_writesWb h (by decide)
  exact ⟨completed, keepsIn, keepsWb, exec_keepsOut h (.inr (.inr rfl))⟩

/-- Every plane that CSC and LSH leave is bounded by 1280000 (R98, R111). -/
theorem exec_csc_lsh_abs_le {u : State} (hcsc : exec .csc s = .next t) (hlsh : exec .lsh t = .next u) (hc : c < np s)
    (hk : k < 64) : |wbInt u c k| ≤ 1280000 := by
  obtain ⟨lo, hi, -⟩ := exec_csc_range hcsc hc hk
  rw [exec_lsh_exact hlsh (by rwa [np_of_exec hcsc (.inl rfl)]) hk (by omega), abs_le]
  omega

/-- Settles O22: the entries of the two passes; and 1270000 is a constant whose result the store keeps. -/
theorem dctIsRowThenColumnPass : Obligations.DctIsRowThenColumnPass := by
  refine fun s => ⟨_, rfl, fun c hc u hu v hv => ?_, fun c hc white k hk => ?_, exec_dct_frame rfl⟩
  · rw [exec_dct_wbInt rfl hc (by omega), dctPlane_entry _ hu hv]
    congr 2
    refine Finset.sum_congr rfl fun i hi => ?_
    rw [Finset.mem_range] at hi
    rw [rowPass_entry _ hi hv]
    congr 2
    refine Finset.sum_congr rfl fun j hj => ?_
    rw [Finset.mem_range] at hj
    rw [wbPlane_getD s c (by omega)]
  · rw [exec_dct_constant rfl hc white hk]
    split <;> decide

/-- Settles O23: 2^31 * 2^17 in a row, and 2^34 * 2^17 in a column. -/
theorem dctAccumulatorsFit : Obligations.DctAccumulatorsFit := by
  refine ⟨fun v hv => sum_abs_cosK_le hv, fun s c u hu v hv => ⟨fun i hi => ⟨fun m hm => ?_, ?_⟩, fun m hm => ?_⟩⟩
  · exact (abs_partial_sum_cosK_le (fun j _ => abs_wbInt_le s c (8 * i + j)) hm hv).trans (by norm_num)
  · exact (abs_rowPass_wbPlane_le s c (by omega)).trans (by norm_num)
  · simp only [mul_comm (cosK u _)]
    exact (abs_partial_sum_cosK_le (fun i hi => abs_rowPass_wbPlane_le s c (by omega)) hm hu).trans_lt (by norm_num)

/-- Settles O24: the growth by 64; and constants of 2^25 and 2^30, whose 2^31 and 2^36 wrap. -/
theorem dctStoreWidth : Obligations.DctStoreWidth := by
  refine ⟨fun s c M hc hM hS => ⟨_, rfl, fun k hk => ?_⟩, fun s c hc hS => ⟨_, rfl, ?_⟩,
    fun s c hc hS => ⟨_, rfl, ?_⟩, fun s => ⟨_, _, rfl, rfl, fun c hc k hk => exec_csc_lsh_abs_le rfl rfl hc hk⟩⟩
  · obtain ⟨value, grown⟩ := exec_dct_exact rfl hc hM hS hk
    exact ⟨value, by omega⟩
  · rw [exec_dct_constant rfl hc hS (by decide)]; decide
  · rw [exec_dct_constant rfl hc hS (by decide)]; decide

/-- Settles O28: oddness passes through the store but for -2^31; impulses show where the roundings do not add. -/
theorem dctLinearityCornerCases : Obligations.DctLinearityCornerCases := by
  refine ⟨fun S hS n hn => ?_, fun S S' hS n hn => dctPlane_neg hS hn,
    fun s s' c hc hc' hS => ⟨_, _, rfl, rfl, fun k hk => ?_⟩, fun n hn hne => ?_,
    fun S1 S2 S3 hS n hn => dctPlane_add_exact hS hn⟩
  · rw [dctPlane_constant hS hn]; simp
  · have negated : (dctPlane (wbPlane s' c)).getD k 0 = -(dctPlane (wbPlane s c)).getD k 0 :=
      dctPlane_neg (fun j hj => by rw [wbPlane_getD s' c hj, wbPlane_getD s c hj, hS j hj]) hk
    rw [exec_dct_wbInt rfl hc hk, exec_dct_wbInt rfl hc' hk, negated]
    exact wrap32_neg _
  · obtain ⟨u, hu, v, hv, rfl⟩ := exists_row_column hn
    obtain ⟨a, -, ha⟩ := rndShr_double_impulse_ne u hu v hv hne
    refine ⟨impulse a, impulse a, impulse (a + a), impulse_length a, impulse_length a, fun k => ?_, ?_⟩
    · simp only [impulse_getD]; split <;> rfl
    · simpa only [dctPlane_impulse (fun k _ => impulse_getD _ k) hu hv] using ha

/-- Settles O29: the two roundings of the impulse's one product fall in the other order. -/
theorem dctIsNotTransposeSymmetric : Obligations.DctIsNotTransposeSymmetric := by
  refine fun S _ hS => ⟨fun i hi j hj => ?_, ?_, ?_⟩
  · rw [hS _ (by omega), hS _ (by omega)]
    congr 1
    rw [eq_iff_iff]; omega
  · rw [dctPlane_impulse hS (by decide) (by decide)]; decide
  · rw [dctPlane_impulse hS (by decide) (by decide)]; decide

end Sys2Proof.Machine
end

section
/-! The errors of the cosine ROM, row by row (R38, R118). The bound 0.455 holds of every entry, but R118 needs the sum of a
row's errors: each magnitude gets a bound of its own, and an entry has the error of its magnitude. -/

namespace Sys2Proof.Reference

/-! ### Sharper bounds on the cosines -/

theorem cosAt_nonneg {m : ℕ} (hm : m ≤ 8) : 0 ≤ cosAt m := by
  have hm' : (m : ℝ) ≤ 8 := by exact_mod_cast hm
  refine Real.cos_nonneg_of_mem_Icc ⟨?_, ?_⟩ <;> nlinarith [Real.pi_pos, (Nat.cast_nonneg m : (0 : ℝ) ≤ m)]

theorem cosAt_sq (m : ℕ) : cosAt m ^ 2 = (1 + cosAt (2 * m)) / 2 := by
  have double : cosAt (2 * m) = Real.cos (2 * (m * (Real.pi / 16))) := by rw [cosAt]; congr 1; push_cast; ring
  rw [double, cosAt, Real.cos_two_mul]; ring

/-- The bounds that the cosine of the doubled angle gives. -/
theorem cosAt_bounds_of_double {m : ℕ} (hm : m ≤ 8) {lo hi : ℝ} (hhi : 0 ≤ hi) (h1 : lo ^ 2 < (1 + cosAt (2 * m)) / 2)
    (h2 : (1 + cosAt (2 * m)) / 2 < hi ^ 2) : lo < cosAt m ∧ cosAt m < hi := by
  rw [← cosAt_sq] at h1 h2
  exact ⟨lt_of_pow_lt_pow_left₀ 2 (cosAt_nonneg hm) h1, lt_of_pow_lt_pow_left₀ 2 hhi h2⟩

theorem sqrt_two_sharp : 1.414213562373 < √2 ∧ √2 < 1.414213562374 :=
  ⟨Real.lt_sqrt_of_sq_lt (by norm_num), (Real.sqrt_lt' (by norm_num)).2 (by norm_num)⟩

theorem cosAt_twelve : cosAt 12 = -(√2 / 2) := by
  rw [← cosAt_four]; exact cosAt_reflect (m := 4) (by decide)

theorem cosAt_two_sharp : 0.923879532511 < cosAt 2 ∧ cosAt 2 < 0.923879532512 := by
  obtain ⟨lo, hi⟩ := sqrt_two_sharp
  apply cosAt_bounds_of_double (by decide) (by norm_num) <;> rw [cosAt_four] <;> norm_num at lo hi ⊢ <;> linarith

theorem cosAt_six_sharp : 0.382683432364 < cosAt 6 ∧ cosAt 6 < 0.382683432366 := by
  obtain ⟨lo, hi⟩ := sqrt_two_sharp
  apply cosAt_bounds_of_double (by decide) (by norm_num) <;> rw [cosAt_twelve] <;> norm_num at lo hi ⊢ <;> linarith

/-! ### The error of a magnitude -/

/-- Bounds on the errors of the magnitudes M[m], m = 0..7, in millionths. -/
def magnitudeError (m : ℕ) : ℕ := [0, 260830, 272390, 454135, 0, 173805, 43100, 335435].getD m 0

/-- The square of a scaled cosine, from the doubled angle. -/
theorem scaled_cosAt_sq (m : ℕ) : (2 ^ 14 * (√2 * cosAt m)) ^ 2 = 2 ^ 28 * (1 + cosAt (2 * m)) := by
  rw [mul_pow, mul_pow, Real.sq_sqrt zero_le_two, cosAt_sq]; ring

/-- The squares of M[m] ∓ its error enclose the square of the scaled cosine. -/
theorem magnitudeError_sq_bounds {m : ℕ} (h1 : 1 ≤ m) (h7 : m ≤ 7) :
    ((magnitude m : ℝ) - magnitudeError m / 10 ^ 6) ^ 2 ≤ (2 ^ 14 * (√2 * cosAt m)) ^ 2 ∧
      (2 ^ 14 * (√2 * cosAt m)) ^ 2 ≤ ((magnitude m : ℝ) + magnitudeError m / 10 ^ 6) ^ 2 := by
  obtain ⟨lo4, hi4⟩ := sqrt_two_sharp
  obtain ⟨lo2, hi2⟩ := cosAt_two_sharp
  obtain ⟨lo6, hi6⟩ := cosAt_six_sharp
  have at10 : cosAt 10 = -cosAt 6 := cosAt_reflect (m := 6) (by decide)
  have at14 : cosAt 14 = -cosAt 2 := cosAt_reflect (m := 2) (by decide)
  rw [scaled_cosAt_sq]
  interval_cases m
  all_goals simp only [Nat.reduceMul, cosAt_four, cosAt_eight, at10, cosAt_twelve, at14]
  all_goals constructor <;> norm_num [magnitude, magnitudeError] <;> linarith

theorem abs_magnitude_sub_le_error {m : ℕ} (h1 : 1 ≤ m) (h7 : m ≤ 7) :
    |(magnitude m : ℝ) - 2 ^ 14 * (√2 * cosAt m)| ≤ (magnitudeError m : ℝ) / 10 ^ 6 := by
  obtain ⟨lo, hi⟩ := magnitudeError_sq_bounds h1 h7
  have positive : ∀ n ≤ 7, 0 ≤ magnitude n := by decide
  have nonneg : (0 : ℝ) ≤ magnitude m := by exact_mod_cast positive m h7
  have := cosAt_nonneg (m := m) (by omega)
  have above := (abs_le_of_sq_le_sq' lo (by positivity)).2
  have below := (abs_le_of_sq_le_sq' hi (by positivity)).2
  rw [abs_le]; constructor <;> linarith

/-! ### The error of a row -/

/-- The angle number of a ROM entry's magnitude, mirrored at 8. -/
def acuteAngle (u i : ℕ) : ℕ := if foldedAngle u i > 8 then 16 - foldedAngle u i else foldedAngle u i

/-- An entry has the error of its magnitude. -/
theorem abs_cosK_sub_eq {u i : ℕ} (hu : u < 8) (pos : 1 ≤ u) (hi : i < 8) :
    |(Machine.cosK u i : ℝ) - 2 ^ 14 * basis u i| =
      |(magnitude (acuteAngle u i) : ℝ) - 2 ^ 14 * (√2 * cosAt (acuteAngle u i))| := by
  rw [cosK_eq_magnitude u hu i hi, basis_of_pos pos, acuteAngle]
  split
  · have folded : foldedAngle u i ≤ 16 := by rcases foldedAngle_mem u hu pos i hi with h | h <;> omega
    rw [cosAt_reflect folded, Int.cast_neg, mul_neg, mul_neg, ← abs_neg]
    congr 1; ring
  · rfl

theorem acuteAngle_mem {u i : ℕ} (hu : u < 8) (pos : 1 ≤ u) (hi : i < 8) : 1 ≤ acuteAngle u i ∧ acuteAngle u i ≤ 7 := by
  rw [acuteAngle]
  rcases foldedAngle_mem u hu pos i hi with h | h <;> split <;> omega

theorem abs_cosK_sub_le_error {u i : ℕ} (hu : u < 8) (hi : i < 8) :
    |(Machine.cosK u i : ℝ) - 2 ^ 14 * basis u i| ≤ (magnitudeError (acuteAngle u i) : ℝ) / 10 ^ 6 := by
  rcases Nat.eq_zero_or_pos u with rfl | pos
  · rw [cosK_zero_exact hi, sub_self, abs_zero]; positivity
  · obtain ⟨h1, h7⟩ := acuteAngle_mem hu pos hi
    rw [abs_cosK_sub_eq hu pos hi]
    exact abs_magnitude_sub_le_error h1 h7

/-- The absolute errors of row u of the ROM, added up (R118). -/
noncomputable def romError (u : ℕ) : ℝ := ∑ i ∈ Finset.range 8, |(Machine.cosK u i : ℝ) - 2 ^ 14 * basis u i|

/-- The absolute entries of row u of the ROM, added up. -/
noncomputable def romGain (u : ℕ) : ℝ := ∑ i ∈ Finset.range 8, |(Machine.cosK u i : ℝ)|

theorem romError_le {u : ℕ} (hu : u < 8) : romError u ≤ if u % 2 = 0 then 1.262 else 2.44841 := by
  have added : ∀ u < 8, ∑ i ∈ Finset.range 8, magnitudeError (acuteAngle u i) ≤
      if u % 2 = 0 then 1262000 else 2448410 := by decide
  calc romError u
    _ ≤ ∑ i ∈ Finset.range 8, (magnitudeError (acuteAngle u i) : ℝ) / 10 ^ 6 :=
      Finset.sum_le_sum fun i hi => abs_cosK_sub_le_error hu (Finset.mem_range.1 hi)
    _ = (∑ i ∈ Finset.range 8, magnitudeError (acuteAngle u i) : ℕ) / 10 ^ 6 := by rw [← Finset.sum_div]; push_cast; rfl
    _ ≤ ((if u % 2 = 0 then 1262000 else 2448410 : ℕ) : ℝ) / 10 ^ 6 := by gcongr; exact added u hu
    _ = if u % 2 = 0 then 1.262 else 2.44841 := by split <;> norm_num

theorem romGain_le {u : ℕ} (hu : u < 8) : romGain u ≤ if u % 2 = 0 then 131072 else 118768 := by
  have added : ∀ u < 8, ∑ i ∈ Finset.range 8, |Machine.cosK u i| ≤ if u % 2 = 0 then 131072 else 118768 := by decide
  calc romGain u
    _ = (∑ i ∈ Finset.range 8, |Machine.cosK u i| : ℤ) := by push_cast; rfl
    _ ≤ ((if u % 2 = 0 then 131072 else 118768 : ℤ) : ℝ) := by exact_mod_cast added u hu
    _ = if u % 2 = 0 then 131072 else 118768 := by split <;> norm_num

theorem romError_nonneg (u : ℕ) : 0 ≤ romError u := Finset.sum_nonneg fun _ _ => abs_nonneg _

theorem romGain_nonneg (u : ℕ) : 0 ≤ romGain u := Finset.sum_nonneg fun _ _ => abs_nonneg _

/-- The factor of Smax in R118, the scale of both passes multiplied in: largest where both rows are odd. -/
theorem romError_products_le {u v : ℕ} (hu : u < 8) (hv : v < 8) :
    romGain u * romError v + romError u * (romGain v + romError v) ≤ 0.0021666 * 2 ^ 28 := by
  have gu := romGain_le hu
  have gv := romGain_le hv
  have eu := romError_le hu
  have ev := romError_le hv
  calc romGain u * romError v + romError u * (romGain v + romError v)
    _ ≤ (if u % 2 = 0 then 131072 else 118768) * (if v % 2 = 0 then 1.262 else 2.44841) +
        (if u % 2 = 0 then 1.262 else 2.44841) *
          ((if v % 2 = 0 then 131072 else 118768) + if v % 2 = 0 then 1.262 else 2.44841) := by
      have := romGain_nonneg u
      have := romGain_nonneg v
      have := romError_nonneg u
      have := romError_nonneg v
      gcongr
    _ ≤ 0.0021666 * 2 ^ 28 := by split_ifs <;> norm_num

end Sys2Proof.Reference
end

section
/-! The core's DCT against the document's real transform (R106, R107, R118). With A' = 2^14 * A, and 2^28 * 80000 * D as the
double sum over A', the difference from 2^28 * T splits into the ROM's error in each pass, weighted by the other pass's row,
and the two roundings. -/

namespace Sys2Proof.Reference

open Machine

/-! ### The transform as two passes of one basis (R107) -/

theorem coeff_eq_basis_sum (S : ℕ → ℤ) (u v : ℕ) :
    80000 * coeff S u v =
      ∑ i ∈ Finset.range 8, ∑ j ∈ Finset.range 8, basis u i * basis v j * (S (8 * i + j) : ℝ) := by
  have two : √2 * √2 = 2 := Real.mul_self_sqrt zero_le_two
  simp only [coeff, Finset.mul_sum, basis]
  refine Finset.sum_congr rfl fun i _ => Finset.sum_congr rfl fun j _ => ?_
  linear_combination -(scale u * scale v * (S (8 * i + j) : ℝ) * cosine u i * cosine v j) * two

/-- D depends on the 64 entries of the plane only. -/
theorem coeff_congr {S S' : ℕ → ℤ} (h : ∀ k < 64, S k = S' k) (u v : ℕ) : coeff S u v = coeff S' u v := by
  simp only [coeff]
  congr 1
  refine Finset.sum_congr rfl fun i hi => Finset.sum_congr rfl fun j hj => ?_
  rw [Finset.mem_range] at hi hj
  rw [h _ (by omega)]

/-- Row i of the plane against A'(v, ·): the row pass with neither error. -/
noncomputable def realRow (S : List ℤ) (v i : ℕ) : ℝ :=
  ∑ j ∈ Finset.range 8, (S.getD (8 * i + j) 0 : ℝ) * (2 ^ 14 * basis v j)

theorem coeff_eq_realRow_sum (S : List ℤ) (u v : ℕ) :
    2 ^ 28 * (80000 * coeff (fun k => S.getD k 0) u v) =
      ∑ i ∈ Finset.range 8, realRow S v i * (2 ^ 14 * basis u i) := by
  simp only [coeff_eq_basis_sum, realRow, Finset.mul_sum, Finset.sum_mul]
  exact Finset.sum_congr rfl fun i _ => Finset.sum_congr rfl fun j _ => by ring

/-! ### The exact positions (R113) -/

theorem romSign_eq_basis {u i : ℕ} (hu : u ∈ [0, 4]) (hi : i < 8) : (romSign u i : ℝ) = basis u i := by
  have scaled : (cosK u i : ℝ) = 2 ^ 14 * basis u i := by
    rcases List.mem_pair.1 hu with rfl | rfl
    · exact cosK_zero_exact hi
    · exact cosK_four_exact hi
  rw [cosK_eq_romSign u hu i hi] at scaled
  push_cast at scaled
  linarith

theorem dctPlane_eq_coeff (S : List ℤ) {u v : ℕ} (hu : u ∈ [0, 4]) (hv : v ∈ [0, 4]) :
    ((dctPlane S).getD (8 * u + v) 0 : ℝ) = 80000 * coeff (fun k => S.getD k 0) u v := by
  rw [dctPlane_exact S hu hv, coeff_eq_basis_sum]
  push_cast
  refine Finset.sum_congr rfl fun i hi => Finset.sum_congr rfl fun j hj => ?_
  rw [romSign_eq_basis hu (Finset.mem_range.1 hi), romSign_eq_basis hv (Finset.mem_range.1 hj)]

/-! ### The error of the two passes (R118) -/

theorem abs_rndShr_sub_le (x : ℤ) : |16384 * (rndShr x 14 : ℝ) - x| ≤ 8192 := by
  have near := rndShr_near x
  exact_mod_cast (by omega : |16384 * rndShr x 14 - x| ≤ 8192)

/-- The difference of two sums of products, one factor at a time. -/
theorem sum_mul_sub_sum_mul (r q k a : ℕ → ℝ) :
    ∑ i ∈ Finset.range 8, r i * k i - ∑ i ∈ Finset.range 8, q i * a i =
      ∑ i ∈ Finset.range 8, (r i - q i) * k i + ∑ i ∈ Finset.range 8, q i * (k i - a i) := by
  rw [← Finset.sum_sub_distrib, ← Finset.sum_add_distrib]
  exact Finset.sum_congr rfl fun i _ => by ring

section

variable {S : List ℤ} {M : ℝ} (hS : ∀ k < 64, |(S.getD k 0 : ℝ)| ≤ M)
include hS

theorem abs_realRow_le {v i : ℕ} (hi : i < 8) : |realRow S v i| ≤ M * (romGain v + romError v) := by
  have nonneg : 0 ≤ M := (abs_nonneg _).trans (hS 0 (by decide))
  calc |realRow S v i|
    _ ≤ M * ∑ j ∈ Finset.range 8, |2 ^ 14 * basis v j| := abs_partial_sum_le (fun j hj => hS _ (by omega)) le_rfl
    _ ≤ M * (romGain v + romError v) := by
      rw [romGain, romError, ← Finset.sum_add_distrib]
      gcongr with j
      rw [abs_sub_comm]
      linarith [abs_sub_abs_le_abs_sub (2 ^ 14 * basis v j) (cosK v j : ℝ)]

/-- The row pass, scaled back: half of 2^14 for its rounding, and the ROM's error on M. -/
theorem abs_rowPass_sub_realRow_le {v i : ℕ} (hv : v < 8) (hi : i < 8) :
    |16384 * ((rowPass S).getD (8 * i + v) 0 : ℝ) - realRow S v i| ≤ 8192 + M * romError v := by
  have rounding := abs_rndShr_sub_le (∑ j ∈ Finset.range 8, S.getD (8 * i + j) 0 * cosK v j)
  rw [← rowPass_entry S hi hv] at rounding
  have rom : |((∑ j ∈ Finset.range 8, S.getD (8 * i + j) 0 * cosK v j : ℤ) : ℝ) - realRow S v i| ≤ M * romError v := by
    rw [realRow]
    push_cast
    rw [← Finset.sum_sub_distrib]
    simp only [← mul_sub]
    exact abs_partial_sum_le (fun j hj => hS _ (by omega)) le_rfl
  exact (abs_sub_le _ _ _).trans (add_le_add rounding rom)

/-- T, scaled back: the row pass's error weighted by the column's ROM row, the ROM's error on the real row, and half of 2^28
for the last rounding. -/
theorem abs_dctPlane_sub_coeff_scaled_le {u v : ℕ} (hu : u < 8) (hv : v < 8) :
    |2 ^ 28 * ((dctPlane S).getD (8 * u + v) 0 : ℝ) - 2 ^ 28 * (80000 * coeff (fun k => S.getD k 0) u v)| ≤
      2 ^ 27 + ((8192 + M * romError v) * romGain u + M * (romGain v + romError v) * romError u) := by
  have rounding := abs_rndShr_sub_le (∑ i ∈ Finset.range 8, cosK u i * (rowPass S).getD (8 * i + v) 0)
  rw [← dctPlane_entry S hu hv] at rounding
  have rows : |∑ i ∈ Finset.range 8, (16384 * ((rowPass S).getD (8 * i + v) 0 : ℝ) - realRow S v i) * (cosK u i : ℝ)| ≤
      (8192 + M * romError v) * romGain u :=
    abs_partial_sum_le (fun i hi => abs_rowPass_sub_realRow_le hS hv hi) le_rfl
  have rom : |∑ i ∈ Finset.range 8, realRow S v i * ((cosK u i : ℝ) - 2 ^ 14 * basis u i)| ≤
      M * (romGain v + romError v) * romError u :=
    abs_partial_sum_le (fun i hi => abs_realRow_le hS hi) le_rfl
  have last : |2 ^ 28 * ((dctPlane S).getD (8 * u + v) 0 : ℝ) -
      ∑ i ∈ Finset.range 8, 16384 * ((rowPass S).getD (8 * i + v) 0 : ℝ) * (cosK u i : ℝ)| ≤ 2 ^ 27 := by
    have scaled : ∑ i ∈ Finset.range 8, 16384 * ((rowPass S).getD (8 * i + v) 0 : ℝ) * (cosK u i : ℝ) =
        16384 * ((∑ i ∈ Finset.range 8, cosK u i * (rowPass S).getD (8 * i + v) 0 : ℤ) : ℝ) := by
      push_cast
      rw [Finset.mul_sum]
      exact Finset.sum_congr rfl fun i _ => by ring
    rw [scaled, show (2 : ℝ) ^ 28 = 16384 * 16384 by norm_num, mul_assoc, ← mul_sub, abs_mul, abs_of_pos (by norm_num)]
    linarith
  refine (abs_sub_le _ _ _).trans (add_le_add last ?_)
  rw [coeff_eq_realRow_sum, sum_mul_sub_sum_mul]
  exact (abs_add_le _ _).trans (add_le_add rows rom)

/-- The accuracy of R118. -/
theorem abs_dctPlane_sub_coeff_le {u v : ℕ} (hu : u < 8) (hv : v < 8) :
    |((dctPlane S).getD (8 * u + v) 0 : ℝ) - 80000 * coeff (fun k => S.getD k 0) u v| ≤ 0.0021666 * M + 4.5 := by
  have nonneg : 0 ≤ M := (abs_nonneg _).trans (hS 0 (by decide))
  have scaled := abs_dctPlane_sub_coeff_scaled_le hS hu hv
  rw [← mul_sub, abs_mul, abs_of_pos (by norm_num)] at scaled
  have gain : romGain u ≤ 131072 := (romGain_le hu).trans (by split <;> norm_num)
  have products := mul_le_mul_of_nonneg_left (romError_products_le hu hv) nonneg
  linarith

/-- For the planes that CSC and LSH leave the bound is 2778 in T units, 0.0348 in D units. -/
theorem abs_dctPlane_sub_coeff_le_of_shifted (hM : M ≤ 1280000) {u v : ℕ} (hu : u < 8) (hv : v < 8) :
    |((dctPlane S).getD (8 * u + v) 0 : ℝ) - 80000 * coeff (fun k => S.getD k 0) u v| ≤ 2778 ∧
      |((dctPlane S).getD (8 * u + v) 0 : ℝ) / 80000 - coeff (fun k => S.getD k 0) u v| ≤ 0.0348 := by
  have near : |((dctPlane S).getD (8 * u + v) 0 : ℝ) - 80000 * coeff (fun k => S.getD k 0) u v| ≤ 2778 :=
    (abs_dctPlane_sub_coeff_le hS hu hv).trans (by linarith)
  refine ⟨near, ?_⟩
  rw [abs_le] at near ⊢
  constructor <;> linarith

end

/-! ### The statements -/

/-- DCT of a shifted plane, through the store, against the real coefficient of the plane before it. -/
theorem exec_dct_near_coeff {s t : State} {c : ℕ} (h : exec .dct s = .next t) (hc : c < np s)
    (shifted : ∀ k < 64, |wbInt s c k| ≤ 1280000) {u v : ℕ} (hu : u < 8) (hv : v < 8) :
    |(wbInt t c (8 * u + v) : ℝ) - 80000 * coeff (wbInt s c) u v| ≤ 2778 ∧
      |(wbInt t c (8 * u + v) : ℝ) / 80000 - coeff (wbInt s c) u v| ≤ 0.0348 := by
  have bounded : ∀ k < 64, |((wbPlane s c).getD k 0 : ℝ)| ≤ (1280000 : ℤ) := fun k hk => by
    rw [wbPlane_getD s c hk]; exact_mod_cast shifted k hk
  rw [(exec_dct_exact h hc (by norm_num) shifted (by omega)).1,
    ← coeff_congr (fun k hk => wbPlane_getD s c hk) u v]
  exact abs_dctPlane_sub_coeff_le_of_shifted bounded (by norm_num) hu hv

/-- Settles O26: T is the signed sum of the plane, and the signs are the real basis. -/
theorem dctIsExactAtFourPositions : Obligations.DctIsExactAtFourPositions := by
  refine fun S _ => ⟨?_, fun u hu v hv => ⟨?_, dctPlane_eq_coeff S hu hv⟩⟩
  · have positive : ∀ i < 8, romSign 0 i = 1 := by decide
    rw [dctPlane_exact S (u := 0) (v := 0) (by decide) (by decide)]
    refine Finset.sum_congr rfl fun i hi => Finset.sum_congr rfl fun j hj => ?_
    rw [positive i (Finset.mem_range.1 hi), positive j (Finset.mem_range.1 hj), one_mul, one_mul]
  · simp only [dctPlane_exact S hu hv, Finset.mul_sum]
    refine Finset.sum_congr rfl fun i hi => Finset.sum_congr rfl fun j hj => ?_
    rw [cosK_eq_romSign u hu i (Finset.mem_range.1 hi), cosK_eq_romSign v hv j (Finset.mem_range.1 hj)]
    ring

/-- Settles O27: each pass takes a constant to 8 times it or to 0, and T(0,0) is 80000 * D(0,0). -/
theorem dctOfConstantPlane : Obligations.DctOfConstantPlane := by
  intro S S0 _ hS
  have dc : (dctPlane S).getD 0 0 = 64 * S0 := dctPlane_constant hS (by decide)
  refine ⟨dc, fun n hn hne => by rw [dctPlane_constant hS hn, if_neg hne], fun k hk => ?_⟩
  have reference := dctPlane_eq_coeff S (u := 0) (v := 0) (by decide) (by decide)
  rw [dc, hk] at reference ⊢
  push_cast at reference
  exact ⟨by ring, by linarith⟩

/-- Settles O30: the bound for any plane, and for the one that CSC and LSH leave, which DCT transforms without a wrap. -/
theorem dctAccuracy : Obligations.DctAccuracy := by
  refine ⟨fun S M _ hS u hu v hv => ?_, fun s => ?_⟩
  · have bounded : ∀ k < 64, |(S.getD k 0 : ℝ)| ≤ M := fun k hk => by exact_mod_cast hS k hk
    exact ⟨abs_dctPlane_sub_coeff_le bounded hu hv,
      fun hM => (abs_dctPlane_sub_coeff_le_of_shifted bounded (by exact_mod_cast hM) hu hv).2⟩
  · obtain ⟨a, hcsc, -⟩ := exec_completes .csc s
    obtain ⟨w, hlsh, -⟩ := exec_completes .lsh a
    obtain ⟨t, hdct, -⟩ := exec_completes .dct w
    refine ⟨a, w, t, hcsc, hlsh, hdct, fun c hc => ?_⟩
    have shifted : ∀ k < 64, |wbInt w c k| ≤ 1280000 := fun k hk => exec_csc_lsh_abs_le hcsc hlsh hc hk
    have processed : c < np w := by rwa [np_of_exec hlsh (.inr rfl), np_of_exec hcsc (.inl rfl)]
    exact ⟨shifted, fun u hu v hv => exec_dct_near_coeff hdct processed shifted hu hv⟩

end Sys2Proof.Reference
end

section
/-! The quantizer (R120 to R125), completion to completion: its divider as a floor quotient and as the real rounding,
the exact value it leaves at a position of a processed plane, and its frame. -/

namespace Sys2Proof.Machine

variable {s t u : State} {c k : Nat}

/-! ### The divider (R11, R122) -/

theorem divRha_of_nonneg {a : Int} (ha : 0 ≤ a) (d : Nat) : divRha a d = (a + (d / 2 : Nat)) / d := by
  rw [divRha, sgn, if_neg (by omega), one_mul, Int.natCast_ediv, Nat.cast_add, Int.natAbs_of_nonneg ha]

theorem quantize_of_nonneg {x : Int} (hx : 0 ≤ x) (Q : Nat) : quantize x Q = (x + 40000 * Q) / (80000 * Q) := by
  have half : 80000 * Q / 2 = 40000 * Q := by omega
  rw [quantize, divRha_of_nonneg hx, half]
  push_cast
  rfl

/-- The sign is applied after the division: below 0 the quotient is that of the magnitude, negated (R122). -/
theorem quantize_of_neg {x : Int} (hx : x < 0) {Q : Nat} (hQ : 1 ≤ Q) :
    quantize x Q = -((-x + 40000 * Q) / (80000 * Q)) := by
  have odd : quantize (-x) Q = -quantize x Q := divRha_neg x _ (by omega)
  rw [← quantize_of_nonneg (by omega) Q, odd, neg_neg]

theorem quantize_eq_roundHa (x : Int) {Q : Nat} (hQ : 1 ≤ Q) :
    quantize x Q = Reference.roundHa ((x : ℝ) / (80000 * Q)) := by
  rw [quantize, divRha_eq_roundHa x _ (by omega) (by omega)]
  push_cast
  rfl

/-! ### The table entry (R37, R121) -/

theorem quantDivisor_le (s : State) (c : Nat) (hk : k < 64) : quantDivisor s c k ≤ 121 := by
  have lumaMax : ∀ k < 64, luma k ≤ 121 := by decide
  have chromaMax : ∀ k < 64, chroma k ≤ 121 := by decide
  unfold quantDivisor unitQ
  split
  · omega
  · split
    · exact lumaMax k hk
    · exact chromaMax k hk

/-- The entry of UNIT, LUMA or CHROMA that QTAB and the plane select: no position of a block is past a table's end. -/
theorem quantDivisor_eq_tableEntry (s : State) (c : Nat) (hk : k < 64) :
    quantDivisor s c k =
      if s.ctrl.getLsbD 1 then 1 else if c = 0 then lumaTable.getD k 0 else chromaTable.getD k 0 := by
  have lumaEntry : ∀ k < 64, luma k = lumaTable.getD k 0 := by decide
  have chromaEntry : ∀ k < 64, chroma k = chromaTable.getD k 0 := by decide
  rw [quantDivisor, qtab, unitQ, lumaEntry k hk, chromaEntry k hk]

theorem quantDivisor_of_qtab (identity : qtab s = true) (c k : Nat) : quantDivisor s c k = 1 := by
  rw [quantDivisor, if_pos identity, unitQ]

/-! ### What QNT leaves (R120, R125) -/

theorem exec_qnt_outInt (h : exec .qnt s = .next t) (hc : c < np s) (hk : k < 64) :
    outInt t c k = quantize (wbInt s c k) (quantDivisor s c k) := by
  cases h; exact outInt_qnt s hc hk

theorem abs_exec_qnt_outInt_le (h : exec .qnt s = .next t) (hc : c < np s) (hk : k < 64) : |outInt t c k| ≤ 26844 := by
  obtain ⟨lo, hi⟩ := wbInt_range s c k
  rw [exec_qnt_outInt h hc hk]
  exact quantize_abs_le _ _ lo hi (quantDivisor_pos s c hk)

/-- QNT completes, and writes OUT planes 0..NP-1 only. -/
theorem exec_qnt_frame (h : exec .qnt s = .next t) :
    CompletedWith t.range8 s t ∧ KeepsIn s t ∧ KeepsWbFrom 0 s t ∧ KeepsOutFrom (64 * np s) s t ∧
      t.transpose = s.transpose := by
  obtain ⟨t', h', completed, keepsIn⟩ := exec_completes .qnt s
  obtain rfl : t' = t := by rw [h] at h'; exact (Host.Outcome.next.inj h').symm
  obtain ⟨-, keepsOut⟩ := exec_writesOut h (.inl rfl)
  exact ⟨completed, keepsIn, exec_qnt_keepsWb h, keepsOut, by cases h; rfl⟩

theorem np_of_exec_qnt (h : exec .qnt s = .next t) : np t = np s := by
  obtain ⟨⟨-, -, -, ctrl, -⟩, -⟩ := exec_qnt_frame h
  exact np_of_ctrl_eq ctrl

/-- RANGE8 is the range of what QNT left in the processed planes (R124). -/
theorem exec_qnt_range8_iff (h : exec .qnt s = .next t) :
    t.range8 = true ↔ ∃ c < np s, ∃ k < 64, outInt t c k < -128 ∨ 127 < outInt t c k := by
  rw [← np_of_exec_qnt h]
  exact (exec_quantizes h (.inl rfl)).1

/-! A second QNT reads the WB and the CTRL that the first one kept. -/

theorem exec_qnt_twice_outInt (h : exec .qnt s = .next t) (h' : exec .qnt t = .next u) (hc : c < np s) (hk : k < 64) :
    outInt u c k = outInt t c k := by
  obtain ⟨⟨-, -, -, ctrl, -⟩, -, keepsWb, -⟩ := exec_qnt_frame h
  have sameWb : wbInt t c k = wbInt s c k := congrArg BitVec.toInt (keepsWb _ (Nat.zero_le _))
  rw [exec_qnt_outInt h hc hk, exec_qnt_outInt h' (by rwa [np_of_exec_qnt h]) hk, sameWb, quantDivisor_of_ctrl_eq ctrl]

theorem exec_qnt_twice_outEntry (h : exec .qnt s = .next t) (h' : exec .qnt t = .next u) (n : Nat) :
    outEntry u n = outEntry t n := by
  by_cases hn : n < 64 * np s
  · have sameInt := exec_qnt_twice_outInt h h' (c := n / 64) (k := n % 64) (by omega) (by omega)
    rw [outInt, outInt, Nat.div_add_mod] at sameInt
    exact BitVec.eq_of_toInt_eq sameInt
  · obtain ⟨-, -, -, keepsOut, -⟩ := exec_qnt_frame h'
    exact keepsOut n (by rw [np_of_exec_qnt h]; omega)

theorem exec_qnt_twice_range8 (h : exec .qnt s = .next t) (h' : exec .qnt t = .next u) : u.range8 = t.range8 := by
  rw [Bool.eq_iff_iff, exec_qnt_range8_iff h', exec_qnt_range8_iff h, np_of_exec_qnt h]
  constructor <;> rintro ⟨c, hc, k, hk, outside⟩ <;> refine ⟨c, hc, k, hk, ?_⟩
  · rwa [exec_qnt_twice_outInt h h' hc hk] at outside
  · rwa [exec_qnt_twice_outInt h h' hc hk]

/-! ### The statements -/

/-- Settles O32: the table entries lie in 1..121, which bounds the divider's operands, and the quotient fits OUT. -/
theorem qntRoundsTheQuotient : Obligations.QntRoundsTheQuotient := by
  intro s
  obtain ⟨t, h, -⟩ := exec_completes .qnt s
  obtain ⟨completed, frame⟩ := exec_qnt_frame h
  refine ⟨t, t.range8, h, fun c hc k hk Q hQ => ?_, exec_qnt_range8_iff h, completed, frame⟩
  obtain rfl : Q = quantDivisor s c k := hQ.trans (quantDivisor_eq_tableEntry s c hk).symm
  have positive := quantDivisor_pos s c hk
  have largest := quantDivisor_le s c hk
  have dividend := abs_wbInt_le s c k
  have quotient := abs_exec_qnt_outInt_le h hc hk
  refine ⟨positive, by omega, by omega, by omega, ?_⟩
  rw [exec_qnt_outInt h hc hk]
  exact ⟨quantize_eq_roundHa _ positive, fun nonneg => quantize_of_nonneg nonneg _,
    fun negative => quantize_of_neg negative positive⟩

/-- Settles O33: the bound of R123 is inside the 16-bit range, and the two ends of the 32-bit range reach it. -/
theorem quantizedValueFits16Bits : Obligations.QuantizedValueFits16Bits := by
  refine ⟨fun x Q lo hi hQ => ?_, by decide, by decide⟩
  have bound := quantize_abs_le x Q lo hi hQ
  exact ⟨bound, toInt_ofInt16 _ bound⟩

/-- Settles O34: UNIT makes the divisor 80000, and the first QNT keeps all that the second one reads. -/
theorem identityTableRoundsCoefficients : Obligations.IdentityTableRoundsCoefficients := by
  intro s identity
  obtain ⟨t, h, -⟩ := exec_completes .qnt s
  obtain ⟨u, h', -⟩ := exec_completes .qnt t
  obtain ⟨-, -, keepsWb, -⟩ := exec_qnt_frame h
  refine ⟨t, u, h, h', fun c hc k hk => ?_, fun n => keepsWb n (Nat.zero_le n), exec_qnt_twice_outEntry h h',
    exec_qnt_twice_range8 h h'⟩
  rw [exec_qnt_outInt h hc hk, quantDivisor_of_qtab identity, quantize_eq_roundHa _ le_rfl, Nat.cast_one, mul_one]

end Sys2Proof.Machine
end

section
/-! RUN and the four commands (R135, R136): the states that CSC, LSH, DCT and QNT leave one after the other, and what the
next command finds in each. RUN leaves the last of them, so what it leaves is read off the stages. -/

namespace Sys2Proof.Machine

variable {s t v w x : State} {c k : Nat} {i : Instr}

/-! ### Every completion (R40, R46) -/

theorem exec_completedWith (h : exec i s = .next t) : CompletedWith t.range8 s t ∧ KeepsIn s t := by
  obtain ⟨t', h', frame⟩ := exec_completes i s
  obtain rfl : t' = t := by rw [h] at h'; exact (Host.Outcome.next.inj h').symm
  exact frame

theorem exec_ctrl (h : exec i s = .next t) : t.ctrl = s.ctrl := by
  obtain ⟨⟨-, -, -, ctrl, -⟩, -⟩ := exec_completedWith h
  exact ctrl

theorem exec_done (h : exec i s = .next t) : t.done = true := by
  obtain ⟨⟨done, -⟩, -⟩ := exec_completedWith h
  exact done

theorem exec_idle (h : exec i s = .next t) : busy t = false := by
  obtain ⟨⟨-, -, idle, -⟩, -⟩ := exec_completedWith h
  rw [busy, idle]

/-- RUN completes, and writes planes 0..NP-1 of WB and OUT only (R135). -/
theorem exec_run_frame (h : exec .run s = .next t) :
    CompletedWith t.range8 s t ∧ KeepsIn s t ∧ KeepsWbFrom (64 * np s) s t ∧ KeepsOutFrom (64 * np s) s t := by
  obtain ⟨completed, keepsIn⟩ := exec_completedWith h
  exact ⟨completed, keepsIn, (exec_writesWb h (by decide)).2, (exec_writesOut h (.inr rfl)).2⟩

/-! ### A command written while idle (R39, R62) -/

/-- The completion step reads none of the fields that the accept writes, and writes each of them again. -/
theorem exec_accept (i op : Instr) (s : State) : exec i (accept op s) = exec i s := by
  cases i <;> rfl

theorem exec_of_written {d : Word} (idle : busy s = false) (hd : decode d = .ok i) :
    exec i (memWrite 0x008#12 d s).1 = exec i s := by
  rw [memWrite_cmd_of_legal idle hd, exec_accept]

/-! ### The four commands in order -/

/-- From s, CSC leaves v, then LSH w, then DCT x, then QNT t. -/
structure Pipeline (s v w x t : State) : Prop where
  csc : exec .csc s = .next v
  lsh : exec .lsh v = .next w
  dct : exec .dct w = .next x
  qnt : exec .qnt x = .next t

theorem exists_pipeline (s : State) : ∃ v w x t, Pipeline s v w x t := ⟨_, _, _, _, rfl, rfl, rfl, rfl⟩

namespace Pipeline

/-- RUN leaves what the four commands leave: no stage reads or writes what the completions between them write (R135). -/
theorem run (h : Pipeline s v w x t) : exec .run s = .next t := by
  obtain ⟨csc, lsh, dct, qnt⟩ := h
  cases csc
  cases lsh
  cases dct
  cases qnt
  rfl

/-! Each stage processes the planes that s selects. -/

theorem lsh_planes (h : Pipeline s v w x t) : np v = np s := np_of_ctrl_eq (exec_ctrl h.csc)

theorem dct_planes (h : Pipeline s v w x t) : np w = np s := (np_of_ctrl_eq (exec_ctrl h.lsh)).trans h.lsh_planes

theorem qnt_planes (h : Pipeline s v w x t) : np x = np s := (np_of_ctrl_eq (exec_ctrl h.dct)).trans h.dct_planes

theorem qnt_divisor (h : Pipeline s v w x t) : quantDivisor x = quantDivisor s :=
  quantDivisor_of_ctrl_eq (((exec_ctrl h.dct).trans (exec_ctrl h.lsh)).trans (exec_ctrl h.csc))

/-! ### What each stage leaves -/

/-- LSH after CSC does not wrap (R98). -/
theorem shifted (h : Pipeline s v w x t) (hc : c < np s) (hk : k < 64) : wbInt w c k = wbInt v c k - 1280000 := by
  obtain ⟨lo, -⟩ := exec_csc_range h.csc hc hk
  exact exec_lsh_exact h.lsh (by rwa [h.lsh_planes]) hk (by omega)

theorem abs_shifted_le (h : Pipeline s v w x t) (hc : c < np s) (hk : k < 64) : |wbInt w c k| ≤ 1280000 :=
  exec_csc_lsh_abs_le h.csc h.lsh hc hk

/-- QNT leaves WB, which holds T (R136). -/
theorem wbEntry_kept (h : Pipeline s v w x t) (n : Nat) : wbEntry t n = wbEntry x n :=
  exec_qnt_keepsWb h.qnt n (Nat.zero_le n)

theorem wbInt_kept (h : Pipeline s v w x t) (c k : Nat) : wbInt t c k = wbInt x c k :=
  congrArg BitVec.toInt (h.wbEntry_kept _)

/-- DCT after CSC and LSH does not wrap either (R111, R138). -/
theorem transformed (h : Pipeline s v w x t) (hc : c < np s) (hk : k < 64) :
    wbInt t c k = (dctPlane (wbPlane w c)).getD k 0 ∧ |wbInt t c k| ≤ 81920000 := by
  rw [h.wbInt_kept]
  exact exec_dct_exact h.dct (by rwa [h.dct_planes]) (M := 1280000) (by decide) (fun j hj => h.abs_shifted_le hc hj) hk

theorem quotient (h : Pipeline s v w x t) (hc : c < np s) (hk : k < 64) :
    outInt t c k = quantize (wbInt t c k) (quantDivisor s c k) := by
  rw [exec_qnt_outInt h.qnt (by rwa [h.qnt_planes]) hk, h.wbInt_kept, h.qnt_divisor]

theorem range8_iff (h : Pipeline s v w x t) :
    t.range8 = true ↔ ∃ c < np s, ∃ k < 64, outInt t c k < -128 ∨ 127 < outInt t c k := by
  rw [← h.qnt_planes]
  exact exec_qnt_range8_iff h.qnt

end Pipeline

/-! ### The statements -/

/-- Settles O35: the four completions in order leave RUN's state. -/
theorem runIsThePipeline : Obligations.RunIsThePipeline := by
  intro s
  obtain ⟨v, w, x, t, h⟩ := exists_pipeline s
  exact ⟨v, w, x, t, h.csc, h.lsh, h.dct, h.qnt, h.run, exec_run_frame h.run⟩

/-- Settles O36: each command completes as from the state before its accept, and leaves the engine idle for the next. -/
theorem runEqualsTheFourCommands : Obligations.RunEqualsTheFourCommands := by
  intro s idle
  obtain ⟨v, w, x, t, h⟩ := exists_pipeline s
  have accepted : (memWrite 0x008#12 0x5#32 s).1 = accept .run s := memWrite_cmd_of_legal idle (by decide)
  refine ⟨v, w, x, t, (exec_of_written idle (by decide)).trans h.csc,
    (exec_of_written (exec_idle h.csc) (by decide)).trans h.lsh,
    (exec_of_written (exec_idle h.lsh) (by decide)).trans h.dct,
    (exec_of_written (exec_idle h.dct) (by decide)).trans h.qnt, (exec_of_written idle (by decide)).trans h.run,
    exec_done h.csc, exec_done h.lsh, exec_done h.dct, exec_done h.qnt, h.wbEntry_kept, fun c hc k hk => ?_, ?_, ?_,
    exec_idle h.qnt⟩
  · rw [h.wbInt_kept]
    exact exec_dct_wbInt h.dct (by rwa [h.dct_planes]) hk
  · rw [accepted]; rfl
  · rw [accepted, accept_done]

end Sys2Proof.Machine
end

section
/-! What a command's results depend on (R6, R137). Two states of one configuration that agree in the entries a command reads
are carried through each stage side by side; and no event but a completion, a reset and a data write touches a buffer. -/

namespace Sys2Proof.Machine

variable {s t s' t' : State} {i : Instr}

/-! ### Two states side by side -/

/-- Two states select the same planes and the same table. -/
def SameConfig (s t : State) : Prop := chan1 s = chan1 t ∧ qtab s = qtab t

/-- Two states hold the same values in the WB planes that the first selects. -/
def SameWb (s t : State) : Prop := ∀ c < np s, ∀ k < 64, wbInt s c k = wbInt t c k

/-- Two states hold the same values in the OUT planes that the first selects. -/
def SameOut (s t : State) : Prop := ∀ c < np s, ∀ k < 64, outInt s c k = outInt t c k

/-- Two states hold the same bytes in the part of IN that the first one's mode reads. -/
def SameIn (s t : State) : Prop := ∀ b < inBytesRead s, inByte s b = inByte t b

theorem SameConfig.np_eq (h : SameConfig s t) : np s = np t := by rw [np, np, h.1]

theorem SameConfig.quantDivisor_eq (h : SameConfig s t) (c k : Nat) : quantDivisor s c k = quantDivisor t c k := by
  rw [quantDivisor, quantDivisor, h.2]

/-- A completion keeps the configuration. -/
theorem SameConfig.exec (h : SameConfig s t) (hs : exec i s = .next s') (ht : exec i t = .next t') :
    SameConfig s' t' := by
  rw [SameConfig, chan1, chan1, qtab, qtab, exec_ctrl hs, exec_ctrl ht]
  exact h

/-- The first 64 * NP entries are the processed planes, position by position. -/
theorem sameWb_iff : SameWb s t ↔ ∀ n < 64 * np s, wbEntry s n = wbEntry t n := by
  constructor <;> intro h
  · intro n hn
    have same := h (n / 64) (by omega) (n % 64) (by omega)
    rw [wbInt, wbInt, Nat.div_add_mod] at same
    exact BitVec.eq_of_toInt_eq same
  · exact fun c hc k hk => congrArg BitVec.toInt (h _ (by omega))

theorem SameOut.outEntry_eq (h : SameOut s t) {n : Nat} (hn : n < 64 * np s) : outEntry s n = outEntry t n := by
  have same := h (n / 64) (by omega) (n % 64) (by omega)
  rw [outInt, outInt, Nat.div_add_mod] at same
  exact BitVec.eq_of_toInt_eq same

/-! ### The stages -/

/-- CSC reads position k of the grey block, or pixel k, whose bytes are 3k to 3k + 2 (R90, R92). -/
theorem cscValue_congr (config : SameConfig s t) (same : SameIn s t) (c : Nat) {k : Nat} (hk : k < 64) :
    cscValue s c k = cscValue t c k := by
  obtain ⟨mode, -⟩ := config
  unfold SameIn inBytesRead at same
  cases grey : chan1 s with
  | true =>
    rw [if_pos grey] at same
    rw [cscValue, cscValue, ← mode, if_pos grey, if_pos grey, greySample, greySample, same k hk]
  | false =>
    rw [if_neg (by simp [grey])] at same
    have bytes (j : Nat) (hj : j < 3) : rgbSample s j k = rgbSample t j k := by
      rw [rgbSample, rgbSample, same _ (by omega)]
    simp only [cscValue, ← mode, grey, Bool.false_eq_true, if_false, bytes 0 (by decide), bytes 1 (by decide),
      bytes 2 (by decide)]

theorem sameWb_csc (config : SameConfig s t) (same : SameIn s t) (hs : exec .csc s = .next s')
    (ht : exec .csc t = .next t') : SameWb s' t' := by
  intro c hc k hk
  rw [np_of_ctrl_eq (exec_ctrl hs)] at hc
  rw [exec_csc_wbInt hs hc hk, exec_csc_wbInt ht (by rwa [← config.np_eq]) hk, cscValue_congr config same c hk]

theorem sameWb_lsh (config : SameConfig s t) (same : SameWb s t) (hs : exec .lsh s = .next s')
    (ht : exec .lsh t = .next t') : SameWb s' t' := by
  intro c hc k hk
  rw [np_of_ctrl_eq (exec_ctrl hs)] at hc
  rw [exec_lsh_wbInt hs hc hk, exec_lsh_wbInt ht (by rwa [← config.np_eq]) hk, same c hc k hk]

theorem sameWb_dct (config : SameConfig s t) (same : SameWb s t) (hs : exec .dct s = .next s')
    (ht : exec .dct t = .next t') : SameWb s' t' := by
  intro c hc k hk
  rw [np_of_ctrl_eq (exec_ctrl hs)] at hc
  have plane : wbPlane s c = wbPlane t c := List.map_congr_left fun j hj => same c hc j (List.mem_range.1 hj)
  rw [exec_dct_wbInt hs hc hk, exec_dct_wbInt ht (by rwa [← config.np_eq]) hk, plane]

theorem sameOut_qnt (config : SameConfig s t) (same : SameWb s t) (hs : exec .qnt s = .next s')
    (ht : exec .qnt t = .next t') : SameOut s' t' := by
  intro c hc k hk
  rw [np_of_ctrl_eq (exec_ctrl hs)] at hc
  rw [exec_qnt_outInt hs hc hk, exec_qnt_outInt ht (by rwa [← config.np_eq]) hk, same c hc k hk, config.quantDivisor_eq]

/-- QNT keeps the WB that it reads. -/
theorem sameWb_qnt (same : SameWb s t) (hs : exec .qnt s = .next s') (ht : exec .qnt t = .next t') : SameWb s' t' := by
  rw [sameWb_iff] at same ⊢
  rw [np_of_ctrl_eq (exec_ctrl hs)]
  intro n hn
  rw [exec_qnt_keepsWb hs n (Nat.zero_le n), exec_qnt_keepsWb ht n (Nat.zero_le n), same n hn]

/-- RUN's stages one after the other, each on what the one before left equal. -/
theorem sameWb_sameOut_run (config : SameConfig s t) (same : SameIn s t) (hs : exec .run s = .next s')
    (ht : exec .run t = .next t') : SameWb s' t' ∧ SameOut s' t' := by
  obtain ⟨v₁, w₁, x₁, u₁, p⟩ := exists_pipeline s
  obtain ⟨v₂, w₂, x₂, u₂, q⟩ := exists_pipeline t
  obtain rfl : s' = u₁ := Host.Outcome.next.inj (hs.symm.trans p.run)
  obtain rfl : t' = u₂ := Host.Outcome.next.inj (ht.symm.trans q.run)
  have afterCsc := sameWb_csc config same p.csc q.csc
  have configV := config.exec p.csc q.csc
  have afterLsh := sameWb_lsh configV afterCsc p.lsh q.lsh
  have configW := configV.exec p.lsh q.lsh
  have afterDct := sameWb_dct configW afterLsh p.dct q.dct
  exact ⟨sameWb_qnt afterDct p.qnt q.qnt, sameOut_qnt (configW.exec p.dct q.dct) afterDct p.qnt q.qnt⟩

/-- RANGE8 is a function of the OUT entries that QNT and RUN leave (R124). -/
theorem range8_eq_of_sameOut (hi : i = .qnt ∨ i = .run) (config : SameConfig s' t') (same : SameOut s' t')
    (hs : exec i s = .next s') (ht : exec i t = .next t') : s'.range8 = t'.range8 := by
  rw [Bool.eq_iff_iff, (exec_quantizes hs hi).1, (exec_quantizes ht hi).1, OutOutside8, OutOutside8, ← config.np_eq]
  constructor <;> rintro ⟨c, hc, k, hk, outside⟩ <;> refine ⟨c, hc, k, hk, ?_⟩
  · rwa [← same c hc k hk]
  · rwa [same c hc k hk]

/-- The entries that a command reads are equal in two states (R137). -/
def SameOperands (i : Instr) (s t : State) : Prop :=
  (i = .csc ∨ i = .run → SameIn s t) ∧ (i = .lsh ∨ i = .dct ∨ i = .qnt → SameWb s t)

theorem sameWb_exec (config : SameConfig s t) (same : SameOperands i s t) (hi : i ≠ .qnt) (hs : exec i s = .next s')
    (ht : exec i t = .next t') : SameWb s' t' := by
  obtain ⟨sameIn, sameWb⟩ := same
  cases i with
  | csc => exact sameWb_csc config (sameIn (.inl rfl)) hs ht
  | lsh => exact sameWb_lsh config (sameWb (.inl rfl)) hs ht
  | dct => exact sameWb_dct config (sameWb (.inr (.inl rfl))) hs ht
  | qnt => exact absurd rfl hi
  | run => exact (sameWb_sameOut_run config (sameIn (.inr rfl)) hs ht).1

theorem sameOut_exec (config : SameConfig s t) (same : SameOperands i s t) (hi : i = .qnt ∨ i = .run)
    (hs : exec i s = .next s') (ht : exec i t = .next t') : SameOut s' t' := by
  obtain ⟨sameIn, sameWb⟩ := same
  rcases hi with rfl | rfl
  · exact sameOut_qnt config (sameWb (.inr (.inr rfl))) hs ht
  · exact (sameWb_sameOut_run config (sameIn (.inr rfl)) hs ht).2

/-- CSC, LSH and DCT leave RANGE8 at 0; QNT and RUN compute it from equal OUT entries. -/
theorem range8_eq_exec (config : SameConfig s t) (same : SameOperands i s t) (hs : exec i s = .next s')
    (ht : exec i t = .next t') : s'.range8 = t'.range8 := by
  by_cases hi : i = .qnt ∨ i = .run
  · exact range8_eq_of_sameOut hi (config.exec hs ht) (sameOut_exec config same hi hs ht) hs ht
  · have other : i = .csc ∨ i = .lsh ∨ i = .dct := by cases i <;> simp_all
    rw [exec_range8_eq_false hs other, exec_range8_eq_false ht other]

/-! ### Between commands (R6) -/

/-- The three lists and the reset count are all that a reading of a buffer sees. -/
theorem keepsBuffers_of_eq (hin : t.inBuf = s.inBuf) (hwb : t.wb = s.wb) (hout : t.out = s.out)
    (hr : t.resets = s.resets) : KeepsBuffers s t := by
  refine ⟨fun b => ?_, fun n _ => ?_, fun n _ => ?_⟩
  · rw [inByte, inByte, hin, hr]
  · rw [wbEntry, wbEntry, hwb, hr]
  · rw [outEntry, outEntry, hout, hr]

/-- IN and WB stand from offset 0x100 on (R52). -/
theorem le_of_addressMap_data {off : Offset} {target : Target} (h : addressMap off = some target)
    (data : (∃ w, target = .inWord w) ∨ ∃ n, target = .wb n) : 0x100 ≤ off.toNat := by
  rcases data with ⟨w, rfl⟩ | ⟨n, rfl⟩ <;> simp only [addressMap] at h <;> repeat' split at h
  all_goals simp only [Option.some.injEq, reduceCtorEq] at h
  all_goals omega

/-- A host write below IN writes registers only. -/
theorem keepsBuffers_memWrite {off : Offset} (ho : off.toNat < 0x100) (d : Word) (s : State) :
    KeepsBuffers s (memWrite off d s).1 := by
  rcases memWrite_cases off d s with ⟨_, hw⟩ | ⟨-, hw⟩ | ⟨target, hc, hw⟩ <;> rw [hw]
  · exact keepsBuffers_of_eq rfl rfl rfl rfl
  · exact keepsBuffers_of_eq rfl rfl rfl rfl
  · obtain ⟨-, mapped, -⟩ := checkAccess_ok hc
    cases target with
    | inWord w => exact absurd (le_of_addressMap_data mapped (.inl ⟨w, rfl⟩)) (by omega)
    | wb n => exact absurd (le_of_addressMap_data mapped (.inr ⟨n, rfl⟩)) (by omega)
    | cmd =>
      rw [writeTarget, writeCmd]
      split <;> exact keepsBuffers_of_eq rfl rfl rfl rfl
    | id | ctrl | status | out _ => exact keepsBuffers_of_eq rfl rfl rfl rfl

/-- A host turn whose line is no write notes an answer, or nothing. -/
theorem keepsBuffers_hostTurn (s : State) (noWrite : ∀ off d rest, s.host ≠ .write off d :: rest) :
    KeepsBuffers s (hostTurn s) := by
  rw [hostTurn]
  split
  · exact keepsBuffers_of_eq rfl rfl rfl rfl
  · next line rest hline =>
    rcases hostStep_cases line rest s with ⟨r, rest', e⟩ | ⟨off, d, r, rfl, -⟩
    · rw [e]
      exact keepsBuffers_of_eq rfl rfl rfl rfl
    · exact absurd hline (noWrite off d rest)

/-- An event that is no reset, no completion and no host write leaves every entry. -/
theorem keepsBuffers_step (noReset : nextTurn s ≠ .reset) (noCompletion : nextTurn s = .engine → s.phase = .idle)
    (noWrite : nextTurn s = .host → ∀ off d rest, s.host ≠ .write off d :: rest) :
    ∃ t, step s = .next t ∧ KeepsBuffers s t := by
  rcases step_cases s with ⟨turn, e⟩ | ⟨turn, -⟩ | ⟨op, turn, busy, -⟩ | ⟨-, -, e⟩
  · exact ⟨_, e, keepsBuffers_hostTurn (dropTurn s) (noWrite turn)⟩
  · exact absurd turn noReset
  · rw [noCompletion turn] at busy
    cases busy
  · exact ⟨_, e, keepsBuffers_of_eq rfl rfl rfl rfl⟩

/-- Settles O37: equal operands stay equal through every stage, and only three kinds of event write a buffer. -/
theorem resultsDependOnlyOnOperands : Obligations.ResultsDependOnlyOnOperands := by
  refine ⟨fun i s t mode table sameIn sameWb => ?_, fun s => keepsBuffers_step, fun s off d ho =>
    keepsBuffers_memWrite ho d s⟩
  obtain ⟨s', hs, -⟩ := exec_completes i s
  obtain ⟨t', ht, -⟩ := exec_completes i t
  have config : SameConfig s t := ⟨mode, table⟩
  have same : SameOperands i s t := ⟨sameIn, fun hi => sameWb_iff.2 (sameWb hi)⟩
  have planes : np s' = np s := np_of_ctrl_eq (exec_ctrl hs)
  refine ⟨s', t', hs, ht, fun hi n hn => ⟨?_, (exec_writesWb hs hi).1 n hn⟩,
    fun hi n hn => ⟨?_, (exec_writesOut hs hi).1 n hn⟩, range8_eq_exec config same hs ht⟩
  · exact sameWb_iff.1 (sameWb_exec config same hi hs ht) n (by rwa [planes])
  · exact (sameOut_exec config same hi hs ht).outEntry_eq (by rwa [planes])

end Sys2Proof.Machine
end

section
/-! The bounds of a RUN with the standard tables (R138), the inputs that reach them, and the fixed blocks (R139, R141). A pass
bounds its results by the absolute sum of its ROM row, so each position has a bound of its own, which the table's entry there
turns into a bound on the quotient. -/

namespace Sys2Proof.Machine

variable {s t v w x : State} {c k : Nat}

/-! ### The gain of a position (R138) -/

/-- What a pass through row u of the ROM cannot exceed on values within M. -/
def passBound (M : Int) (u : Nat) : Int := (M * ∑ j ∈ Finset.range 8, |cosK u j| + 16383) / 16384

theorem abs_pass_le {f : Nat → Int} {M : Int} (hf : ∀ j < 8, |f j| ≤ M) (u : Nat) :
    |rndShr (∑ j ∈ Finset.range 8, f j * cosK u j) 14| ≤ passBound M u := by
  have sum := abs_partial_sum_le hf (g := cosK u) le_rfl
  refine rnd_abs_le _ _ (sum.trans ?_)
  rw [passBound]
  omega

/-- The bound on T at (u,z): row z of the ROM in the row pass, row u in the column pass. -/
theorem abs_dctPlane_le_gain {S : List Int} {M : Int} (hS : ∀ k < 64, |S.getD k 0| ≤ M) {u z : Nat} (hu : u < 8)
    (hz : z < 8) : |(dctPlane S).getD (8 * u + z) 0| ≤ passBound (passBound M z) u := by
  have rows : ∀ i < 8, |(rowPass S).getD (8 * i + z) 0| ≤ passBound M z := fun i hi => by
    rw [rowPass_entry S hi hz]
    exact abs_pass_le (fun j hj => hS _ (by omega)) z
  rw [dctPlane_entry S hu hz]
  simp only [mul_comm (cosK u _)]
  exact abs_pass_le rows u

/-- A dividend below q + 1/2 divisors has a quotient within q (R122). -/
theorem abs_quantize_le {a q : Int} {Q : Nat} (hQ : 1 ≤ Q) (ha : |a| < (2 * q + 1) * (40000 * Q)) :
    |quantize a Q| ≤ q := by
  have near := divRha_near a (80000 * Q) (by omega) (by omega)
  rw [quantize]
  generalize divRha a (80000 * Q) = n at near ⊢
  have scaled : 80000 * (Q : Int) * |n| ≤ |80000 * (Q : Int) * n - a| + |a| := by
    have triangle := abs_add_le (80000 * (Q : Int) * n - a) a
    rwa [sub_add_cancel, abs_mul, abs_of_pos (by positivity)] at triangle
  push_cast at near
  have below : 80000 * (Q : Int) * |n| < 80000 * (Q : Int) * (q + 1) := by linarith
  exact Int.lt_add_one_iff.1 (lt_of_mul_lt_mul_left below (by positivity))

theorem quantDivisor_luma_plane (s : State) (k : Nat) : quantDivisor s 0 k = if qtab s then 1 else luma k := rfl

theorem quantDivisor_chroma_plane (standard : qtab s = false) (hc : c ≠ 0) (k : Nat) : quantDivisor s c k = chroma k := by
  simp [quantDivisor, standard, hc]

/-- The largest luma gain is 94.61 divisors, at (0,2). -/
theorem luma_gain : ∀ u < 8, ∀ z < 8,
    passBound (passBound 1280000 z) u < (2 * 95 + 1) * (40000 * (luma (8 * u + z) : Int)) := by decide

/-- The largest chroma gain, on samples within 127.5, is 60 divisors, at (0,0). -/
theorem chroma_gain : ∀ u < 8, ∀ z < 8,
    passBound (passBound 1275000 z) u < (2 * 60 + 1) * (40000 * (chroma (8 * u + z) : Int)) := by decide

namespace Pipeline

theorem abs_shifted_chroma_le (h : Pipeline s v w x t) (hc : c < np s) (h0 : c ≠ 0) (hk : k < 64) :
    |wbInt w c k| ≤ 1275000 := by
  obtain ⟨-, hi, -, lo⟩ := exec_csc_range h.csc hc hk
  have := lo h0
  rw [h.shifted hc hk, abs_le]
  omega

/-- The quotient at a position is bounded by the gain there, in divisors. -/
theorem abs_quotient_le (h : Pipeline s v w x t) (hc : c < np s) {M q : Int} (hM : ∀ k < 64, |wbInt w c k| ≤ M)
    (gain : ∀ u < 8, ∀ z < 8,
      passBound (passBound M z) u < (2 * q + 1) * (40000 * (quantDivisor s c (8 * u + z) : Int))) (hk : k < 64) :
    |outInt t c k| ≤ q := by
  obtain ⟨u, hu, z, hz, rfl⟩ := exists_row_column hk
  have bound := abs_dctPlane_le_gain (S := wbPlane w c) (fun j hj => by rw [wbPlane_getD w c hj]; exact hM j hj) hu hz
  rw [h.quotient hc hk]
  refine abs_quantize_le (quantDivisor_pos s c hk) ?_
  rw [(h.transformed hc hk).1]
  exact bound.trans_lt (gain u hu z hz)

theorem abs_luma_le (h : Pipeline s v w x t) (standard : qtab s = false) (hk : k < 64) : |outInt t 0 k| ≤ 95 := by
  refine h.abs_quotient_le (np_pos s) (fun j hj => h.abs_shifted_le (np_pos s) hj) (fun u hu z hz => ?_) hk
  rw [quantDivisor_luma_plane, standard]
  exact luma_gain u hu z hz

theorem abs_chroma_le (h : Pipeline s v w x t) (standard : qtab s = false) (hc : c < np s) (h0 : c ≠ 0) (hk : k < 64) :
    |outInt t c k| ≤ 60 := by
  refine h.abs_quotient_le hc (fun j hj => h.abs_shifted_chroma_le hc h0 hj) (fun u hu z hz => ?_) hk
  rw [quantDivisor_chroma_plane standard h0]
  exact chroma_gain u hu z hz

/-- 95 and 60 are 8-bit values, so RANGE8 is 0 with the standard tables (R124). -/
theorem range8_standard (h : Pipeline s v w x t) (standard : qtab s = false) : t.range8 = false := by
  by_contra outside
  obtain ⟨c, hc, k, hk, far⟩ := h.range8_iff.1 (by simpa using outside)
  by_cases h0 : c = 0
  · subst h0
    have := abs_le.1 (h.abs_luma_le standard hk)
    omega
  · have := abs_le.1 (h.abs_chroma_le standard hc h0 hk)
    omega

/-! ### Blocks whose transform is known (R114) -/

/-- A plane that is constant after LSH has only T(0,0) (R114). -/
theorem transformed_constant (h : Pipeline s v w x t) (hc : c < np s) {S0 : Int} (constant : ∀ k < 64, wbInt w c k = S0)
    (hk : k < 64) : wbInt t c k = if k = 0 then 64 * S0 else 0 := by
  rw [(h.transformed hc hk).1, dctPlane_constant (S0 := S0) (fun j hj => by rw [wbPlane_getD w c hj, constant j hj]) hk]

end Pipeline

/-- The IN bytes that position k of the luma plane is computed from: sample k, or pixel k (R73). -/
def lumaBytes (s : State) (k : Nat) : List Nat := if chan1 s then [k] else [3 * k, 3 * k + 1, 3 * k + 2]

theorem lt_inBytesRead_of_mem_lumaBytes (hk : k < 64) {b : Nat} (hb : b ∈ lumaBytes s k) : b < inBytesRead s := by
  unfold lumaBytes at hb
  unfold inBytesRead
  cases mode : chan1 s <;> simp [mode] at hb ⊢ <;> omega

/-- A grey position has luma 10000 times its sample, in either mode (R90, R92). -/
theorem exec_csc_luma_of_grey (h : exec .csc s = .next v) (hk : k < 64) {y : Byte}
    (grey : ∀ b ∈ lumaBytes s k, inByte s b = y) : wbInt v 0 k = 10000 * (y.toNat : Int) := by
  unfold lumaBytes at grey
  cases mode : chan1 s with
  | true => rw [exec_csc_grey h mode hk, grey k (by simp [mode])]
  | false =>
    obtain ⟨luma, -⟩ :=
      exec_csc_greyPixel h mode hk (grey _ (by simp [mode])) (grey _ (by simp [mode])) (grey _ (by simp [mode]))
    exact luma

/-- Where all rows of a plane are equal, the row pass leaves each column constant, and only row 0 of T is left. -/
theorem dctPlane_of_equal_rows {S : List Int} {f : Nat → Int} (hS : ∀ k < 64, S.getD k 0 = f (k % 8)) {u z : Nat}
    (hu : u < 8) (hz : z < 8) :
    (dctPlane S).getD (8 * u + z) 0 =
      if u = 0 then 8 * rndShr (∑ j ∈ Finset.range 8, f j * cosK z j) 14 else 0 := by
  have row : ∀ i ∈ Finset.range 8, cosK u i * (rowPass S).getD (8 * i + z) 0 =
      cosK u i * rndShr (∑ j ∈ Finset.range 8, f j * cosK z j) 14 := by
    intro i hi
    rw [Finset.mem_range] at hi
    rw [rowPass_entry S hi hz]
    congr 2
    refine Finset.sum_congr rfl fun j hj => ?_
    rw [Finset.mem_range] at hj
    rw [hS _ (by omega), show (8 * i + j) % 8 = j by omega]
  rw [dctPlane_entry S hu hz, Finset.sum_congr rfl row, rndShr_constant_row _ hu]

/-- The shifted samples of R138's luma input, in column j: 127 where A(2,j) > 0, and -128 elsewhere. -/
def columnSample (j : Nat) : Int := if j ∈ [0, 1, 6, 7] then 1270000 else -1280000

namespace Pipeline

theorem shifted_luma_of_grey (h : Pipeline s v w x t) (hk : k < 64) {y : Byte}
    (grey : ∀ b ∈ lumaBytes s k, inByte s b = y) : wbInt w 0 k = 10000 * (y.toNat : Int) - 1280000 := by
  rw [h.shifted (np_pos s) hk, exec_csc_luma_of_grey h.csc hk grey]

/-- Black is the constant -1280000, whose T(0,0) is the largest |T| of any block. -/
theorem transformed_black (h : Pipeline s v w x t) (black : ∀ b < inBytesRead s, inByte s b = 0) :
    wbInt t 0 0 = -81920000 :=
  h.transformed_constant (np_pos s)
    (fun _ hk => h.shifted_luma_of_grey hk fun b hb => black b (lt_inBytesRead_of_mem_lumaBytes hk hb)) (by decide)

/-- The luma input of R138: T(0,2) is 75389352, or 94.24 divisors. -/
theorem quotient_of_columns (h : Pipeline s v w x t) (standard : qtab s = false)
    (columns : ∀ k < 64, wbInt w 0 k = columnSample (k % 8)) : outInt t 0 2 = 94 := by
  have coefficient := dctPlane_of_equal_rows (S := wbPlane w 0) (f := columnSample)
    (fun k hk => by rw [wbPlane_getD w 0 hk, columns k hk]) (u := 0) (z := 2) (by decide) (by decide)
  rw [h.quotient (np_pos s) (by decide), (h.transformed (np_pos s) (by decide)).1, coefficient, quantDivisor_luma_plane,
    standard]
  decide

end Pipeline

/-! ### The statements -/

/-- Settles O38: the bounds by the gain of each position; each named input has a transform that is known exactly. -/
theorem runBounds : Obligations.RunBounds := by
  refine ⟨fun s standard => ?_, fun s black => ?_, fun s standard rgb blue => ?_, fun s standard columns => ?_⟩ <;>
    obtain ⟨v, w, x, t, h⟩ := exists_pipeline s
  · refine ⟨v, w, t, h.csc, h.lsh, h.run, fun c hc k hk => ?_, h.range8_standard standard⟩
    obtain ⟨lo, hi, -⟩ := exec_csc_range h.csc hc hk
    have shifted := h.shifted hc hk
    refine ⟨⟨lo, hi⟩, ⟨by omega, by omega⟩, (h.transformed hc hk).2, ?_, fun h0 => h.abs_chroma_le standard hc h0 hk⟩
    rintro rfl
    exact h.abs_luma_le standard hk
  · have dc := h.transformed_black black
    exact ⟨t, h.run, dc, by rw [dc]; rfl⟩
  · have planes : 1 < np s := by rw [np_of_rgb rgb]; decide
    have cb (k : Nat) (hk : k < 64) : wbInt v 1 k = 2555000 := by
      obtain ⟨hr, hg, hb⟩ := blue k hk
      obtain ⟨-, value, -⟩ := exec_csc_pixel h.csc rgb hk hr hg hb
      exact value
    have dc : wbInt t 1 0 = 64 * 1275000 :=
      h.transformed_constant planes (fun k hk => by rw [h.shifted planes hk, cb k hk]; rfl) (by decide)
    refine ⟨v, t, h.csc, h.run, cb, ?_⟩
    rw [h.quotient planes (by decide), dc, quantDivisor_chroma_plane standard (by decide)]
    decide
  · have sign (k : Nat) : 0 < Reference.basis 2 (k % 8) ↔ k % 8 ∈ [0, 1, 6, 7] :=
      Reference.basis_two_pos_iff _ (Nat.mod_lt _ (by decide))
    simp only [sign] at columns ⊢
    have samples (k : Nat) (hk : k < 64) : wbInt w 0 k = columnSample (k % 8) := by
      rw [columnSample]
      split
      · exact h.shifted_luma_of_grey hk fun b hb => (columns k hk b hb).1 ‹_›
      · exact h.shifted_luma_of_grey hk fun b hb => (columns k hk b hb).2 ‹_›
    refine ⟨v, w, t, h.csc, h.lsh, h.run, fun k hk => ⟨fun hj => ?_, fun hj => ?_⟩, h.quotient_of_columns standard samples⟩
    · rw [samples k hk, columnSample, if_pos hj]
    · rw [samples k hk, columnSample, if_neg hj]

/-- Settles O39: white leaves three constant planes, and 81280000 is 63.5 divisors. -/
theorem whiteBlockEndToEnd : Obligations.WhiteBlockEndToEnd := by
  intro s rgb standard white
  obtain ⟨v, w, x, t, h⟩ := exists_pipeline s
  have planes := np_of_rgb rgb
  have converted (k : Nat) (hk : k < 64) : wbInt v 0 k = 2550000 ∧ wbInt v 1 k = 1280000 ∧ wbInt v 2 k = 1280000 :=
    exec_csc_greyPixel h.csc rgb hk (white _ (by omega)) (white _ (by omega)) (white _ (by omega))
  have shifted (k : Nat) (hk : k < 64) : wbInt w 0 k = 1270000 ∧ wbInt w 1 k = 0 ∧ wbInt w 2 k = 0 := by
    obtain ⟨y, cb, cr⟩ := converted k hk
    rw [h.shifted (by omega) hk, h.shifted (by omega) hk, h.shifted (by omega) hk, y, cb, cr]
    decide
  have constant (c : Nat) (hc : c < 3) : ∀ k < 64, wbInt w c k = if c = 0 then 1270000 else 0 := by
    intro k hk
    obtain ⟨y, cb, cr⟩ := shifted k hk
    interval_cases c
    exacts [y, cb, cr]
  have transformed (c : Nat) (hc : c < 3) (k : Nat) (hk : k < 64) :
      wbInt t c k = if c = 0 ∧ k = 0 then 81280000 else 0 := by
    rw [h.transformed_constant (by omega) (constant c hc) hk]
    split_ifs <;> omega
  refine ⟨v, w, x, t, h.csc, h.lsh, h.dct, h.run, converted, shifted, fun c hc k hk => ?_,
    fun c hc k hk => ⟨h.wbInt_kept c k, ?_⟩, h.range8_standard standard⟩
  · rw [← h.wbInt_kept, transformed c hc k hk]
  · rw [h.quotient (by omega) hk, transformed c hc k hk]
    split
    · next dc =>
      obtain ⟨rfl, rfl⟩ := dc
      rw [quantDivisor_luma_plane, standard]
      decide
    · have positive := quantDivisor_pos s c hk
      exact divRha_zero _ (by omega)

/-- Settles O41: one plane is processed, whose samples are the bytes of IN. -/
theorem singleChannelRun : Obligations.SingleChannelRun := by
  intro s grey
  obtain ⟨v, w, x, t, h⟩ := exists_pipeline s
  have frame := exec_run_frame h.run
  rw [np_of_grey grey] at frame
  refine ⟨t, wbPlane w 0, h.run, overPositions_length _, fun k hk => ?_, h.range8_standard, frame⟩
  obtain ⟨value, bound⟩ := h.transformed (np_pos s) hk
  refine ⟨?_, value, ?_, bound, fun standard => h.abs_luma_le standard hk⟩
  · rw [wbPlane_getD w 0 hk, h.shifted (np_pos s) hk, exec_csc_grey h.csc grey hk]
  · rw [h.quotient (np_pos s) hk, quantDivisor_luma_plane, quantize]

end Sys2Proof.Machine
end

section
/-! The core's quantized values against the document's `round_ha(D/Q)` (R140). The core rounds T/(80000*Q), which is near D/Q
and at four positions equal to it; so the two roundings agree unless D/Q is near a half-integer. -/

namespace Sys2Proof.Reference

open Machine

/-! ### Rounding two near values (R12) -/

theorem abs_roundHa_sub_le (x : ℝ) : |(roundHa x : ℝ) - x| ≤ 1 / 2 := by
  have lo := Int.floor_le (|x| + 1 / 2)
  have hi := Int.lt_floor_add_one (|x| + 1 / 2)
  unfold roundHa
  split
  · have magnitude : |x| = -x := abs_of_neg ‹_›
    push_cast
    rw [abs_le]; constructor <;> linarith
  · have magnitude : |x| = x := abs_of_nonneg (not_lt.1 ‹_›)
    push_cast
    rw [abs_le]; constructor <;> linarith

/-- Away from every half-integer, a value as near as that rounds alike. -/
theorem roundHa_eq_of_near {x y ε : ℝ} (near : |y - x| ≤ ε) (away : ∀ n : ℤ, ε < |x - (n + 1 / 2)|) :
    roundHa y = roundHa x := by
  obtain ⟨lo, hi⟩ := abs_le.1 (abs_roundHa_sub_le x)
  obtain ⟨yLo, yHi⟩ := abs_le.1 near
  have above := away (roundHa x)
  have below := away (roundHa x - 1)
  rw [abs_of_nonpos (by linarith)] at above
  rw [abs_of_nonneg (by push_cast; linarith)] at below
  push_cast at below
  refine (eq_roundHa_of_near ?_).symm
  rw [abs_lt]; constructor <;> linarith

/-- Values less than 1 apart round to integers at most 1 apart. -/
theorem abs_roundHa_sub_roundHa_le {x y : ℝ} (near : |y - x| < 1) : |roundHa y - roundHa x| ≤ 1 := by
  obtain ⟨xLo, xHi⟩ := abs_le.1 (abs_roundHa_sub_le x)
  obtain ⟨yLo, yHi⟩ := abs_le.1 (abs_roundHa_sub_le y)
  obtain ⟨lo, hi⟩ := abs_lt.1 near
  have apart : |(roundHa y : ℝ) - roundHa x| < 2 := by rw [abs_lt]; constructor <;> linarith
  exact Int.lt_add_one_iff.1 (by exact_mod_cast apart)

/-! ### T against D at a position -/

section

variable {s v w x t : State} {c u z : ℕ} (h : Pipeline s v w x t) (hc : c < np s) (hu : u < 8) (hz : z < 8)
include h hc hu hz

/-- The core's D/Q is within 0.0348/Q of the real one (R118). -/
theorem abs_pipeline_sub_coeff_le {Q : ℕ} (hQ : 1 ≤ Q) :
    |(wbInt t c (8 * u + z) : ℝ) / (80000 * Q) - coeff (wbInt w c) u z / Q| ≤ 0.0348 / Q := by
  have pos : (0 : ℝ) < Q := by exact_mod_cast hQ
  obtain ⟨-, near⟩ := exec_dct_near_coeff h.dct (by rwa [h.dct_planes]) (fun k hk => h.abs_shifted_le hc hk) hu hz
  rw [h.wbInt_kept, ← div_div, ← sub_div, abs_div, abs_of_pos pos]
  gcongr

/-- It is equal where both rows of the ROM are exact (R113). -/
theorem pipeline_eq_coeff (exactRow : u ∈ [0, 4]) (exactColumn : z ∈ [0, 4]) (Q : ℕ) :
    (wbInt t c (8 * u + z) : ℝ) / (80000 * Q) = coeff (wbInt w c) u z / Q := by
  obtain ⟨value, -⟩ := h.transformed hc (k := 8 * u + z) (by omega)
  rw [value, dctPlane_eq_coeff _ exactRow exactColumn, coeff_congr (fun k hk => wbPlane_getD w c hk), ← div_div]
  congr 1
  exact mul_div_cancel_left₀ _ (by norm_num)

end

/-- Settles O40: OUT is the real rounding of T/(80000*Q), which is equal to D/Q or within 0.0348/Q of it. -/
theorem relationToTheReference : Obligations.RelationToTheReference := by
  intro s
  obtain ⟨v, w, y, t, h⟩ := exists_pipeline s
  refine ⟨v, w, t, h.csc, h.lsh, h.run, fun c hc u hu z hz Q x hQ hx => ?_⟩
  subst hx
  have hk : 8 * u + z < 64 := by omega
  have positive : 1 ≤ Q := hQ ▸ quantDivisor_pos s c hk
  have near := abs_pipeline_sub_coeff_le h hc hu hz positive
  have rounded : outInt t c (8 * u + z) = roundHa ((wbInt t c (8 * u + z) : ℝ) / (80000 * Q)) := by
    rw [h.quotient hc hk, ← hQ, quantize_eq_roundHa _ positive]
  rw [rounded]
  refine ⟨near, roundHa_eq_of_near near, fun row column => ?_, abs_roundHa_sub_roundHa_le (near.trans_lt ?_)⟩
  · have equal := pipeline_eq_coeff h hc hu hz (by simpa using row) (by simpa using column) Q
    exact ⟨equal, congrArg roundHa equal⟩
  · have one_le : (1 : ℝ) ≤ Q := by exact_mod_cast positive
    rw [div_lt_one (by linarith)]
    linarith

end Sys2Proof.Reference
end

section
/-! The checks of one transaction (R156). Where each target stands is read off the map once; the two classes of targets that
the checks ask for, read-only and refused while busy, are then ranges of offsets, and each check has one lemma for what the
transaction it decides is answered. -/

namespace Sys2Proof.Machine

/-! ### The ranges of the map (R52) -/

/-- An aligned offset that names nothing (R55). -/
def UnmappedAt (a : Nat) : Prop :=
  (0x010 ≤ a ∧ a < 0x100) ∨ (0x1C0 ≤ a ∧ a < 0x400) ∨ (0x700 ≤ a ∧ a < 0x800) ∨ 0xB00 ≤ a

/-- An offset of OUT (R59). -/
def OutAt (a : Nat) : Prop := 0x800 ≤ a ∧ a < 0xB00

/-- An offset of CTRL, IN, WB or OUT, where reads and writes wait for the engine (R64). -/
def DataAt (a : Nat) : Prop := a = 0x004 ∨ (0x100 ≤ a ∧ a < 0x1C0) ∨ (0x400 ≤ a ∧ a < 0x700) ∨ OutAt a

/-- The offsets of a register, or of the buffer that an entry belongs to. -/
def Target.StandsAt : Target → Nat → Prop
  | .id, a => a = 0x000
  | .ctrl, a => a = 0x004
  | .cmd, a => a = 0x008
  | .status, a => a = 0x00C
  | .inWord _, a => 0x100 ≤ a ∧ a < 0x1C0
  | .wb _, a => 0x400 ≤ a ∧ a < 0x700
  | .out _, a => OutAt a

theorem standsAt_of_addressMap {off : Offset} {t : Target} (h : addressMap off = some t) : t.StandsAt off.toNat := by
  simp only [addressMap] at h
  repeat' split at h
  all_goals cases h
  all_goals assumption

/-- The map is defined at every aligned offset outside the unmapped ranges. -/
theorem exists_addressMap {off : Offset} (ha : off.toNat % 4 = 0) (hu : ¬UnmappedAt off.toNat) :
    ∃ t, addressMap off = some t := by
  simp only [UnmappedAt] at hu
  simp only [addressMap]
  repeat' split
  case isFalse => omega
  all_goals exact ⟨_, rfl⟩

theorem addressMap_of_unmappedAt {off : Offset} (hu : UnmappedAt off.toNat) : addressMap off = none := by
  cases h : addressMap off with
  | none => rfl
  | some t =>
    have stands := standsAt_of_addressMap h
    simp only [UnmappedAt] at hu
    cases t <;> simp only [Target.StandsAt, OutAt] at stands <;> omega

/-- The read-only targets are ID and OUT (R148). -/
theorem Target.StandsAt.readonly_iff {t : Target} {a : Nat} (h : t.StandsAt a) :
    t.readonly = true ↔ a = 0x000 ∨ OutAt a := by
  cases t <;> simp [Target.StandsAt, Target.readonly, OutAt] at h ⊢ <;> omega

theorem Target.StandsAt.writable {t : Target} {a : Nat} (h : t.StandsAt a) (notId : a ≠ 0x000) (notOut : ¬OutAt a) :
    t.readonly = false :=
  Bool.eq_false_iff.2 (mt h.readonly_iff.1 (not_or.2 ⟨notId, notOut⟩))

/-- What waits for the engine: a write of CMD, and any transaction on the data targets (R64, R152). -/
theorem Target.StandsAt.refused_iff {t : Target} {a : Nat} (h : t.StandsAt a) (isWrite : Bool) :
    t.refusedWhileBusy isWrite = true ↔ (isWrite = true ∧ a = 0x008) ∨ DataAt a := by
  cases t with
  | cmd => cases isWrite <;> simp [Target.StandsAt, Target.refusedWhileBusy, DataAt, OutAt] at h ⊢ <;> omega
  | _ =>
    simp [Target.StandsAt, Target.refusedWhileBusy, DataAt, OutAt] at h ⊢
    omega

theorem Target.StandsAt.waitless {t : Target} {a : Nat} (h : t.StandsAt a) {isWrite : Bool}
    (hc : isWrite = true → a ≠ 0x008) (hd : ¬DataAt a) : t.refusedWhileBusy isWrite = false :=
  Bool.eq_false_iff.2 (mt (h.refused_iff isWrite).1 (not_or.2 ⟨fun ⟨write, atCmd⟩ => hc write atCmd, hd⟩))

/-! ### What each check answers (R145) -/

section
variable {off : Offset} {s : State} {t : Target} (d : Word)

theorem checkAccess_misaligned (ha : off.toNat % 4 ≠ 0) (isWrite : Bool) :
    checkAccess isWrite off s = .error .misaligned := if_pos (mt (aligned_iff off).1 ha)

theorem checkAccess_unmapped (ha : off.toNat % 4 = 0) (hu : UnmappedAt off.toNat) (isWrite : Bool) :
    checkAccess isWrite off s = .error .unmapped := by
  simp [checkAccess, (aligned_iff off).2 ha, addressMap_of_unmappedAt hu]

theorem memRead_of_error {e : BusError} (h : checkAccess false off s = .error e) : memRead off s = (0, some e) := by
  rw [memRead, h]

/-- A refused write changes nothing, unless it is a CMD write refused as busy (R145, R152). -/
theorem memWrite_of_error {e : BusError} (h : checkAccess true off s = .error e)
    (he : e ≠ .busyRefused ∨ off.toNat ≠ 0x008) : memWrite off d s = (s, some e) := by
  have unchanged : refuseWrite e off s = s :=
    if_neg fun ⟨busyRefused, cmd⟩ => he.elim (· busyRefused) (· (standsAt_of_addressMap cmd))
  simp [memWrite, h, unchanged]

variable (ha : off.extractLsb' 0 2 = 0) (hm : addressMap off = some t)
include ha hm

/-- While busy, a read of a target that waits for the engine is refused (R64, R149). -/
theorem memRead_refused (hb : busy s = true) (hr : t.refusedWhileBusy false = true) :
    memRead off s = (0, some .busyRefused) :=
  memRead_of_error (by simp [checkAccess_mapped ha hm, hb, hr])

/-- While busy, a write of a writable target that waits for the engine is refused; to CMD it also raises an error. -/
theorem memWrite_refused (hb : busy s = true) (hw : t.readonly = false) (hr : t.refusedWhileBusy true = true)
    (hc : off.toNat ≠ 0x008) : memWrite off d s = (s, some .busyRefused) :=
  memWrite_of_error d (by simp [checkAccess_mapped ha hm, hb, hw, hr]) (.inr hc)

/-- A write of a writable target that does not wait for the engine, or while idle, is performed. -/
theorem memWrite_performed (hw : t.readonly = false) (hb : busy s = false ∨ t.refusedWhileBusy true = false) :
    memWrite off d s = (writeTarget t d s, none) := by
  have allowed : (busy s && t.refusedWhileBusy true) = false := by rcases hb with h | h <;> simp [h]
  simp [memWrite, checkAccess_mapped ha hm, hw, allowed]

end

/-! ### The statement -/

/-- Settles O55: an aligned offset outside the unmapped ranges has a target, and the range it stands in says which of the
remaining checks apply. -/
theorem checksRunInOrder : Obligations.ChecksRunInOrder := by
  intro s off d a misaligned unmapped isOut isData
  have target (ha : ¬misaligned) (hu : ¬unmapped) :
      ∃ t, off.extractLsb' 0 2 = 0 ∧ addressMap off = some t ∧ t.StandsAt a := by
    obtain ⟨t, hm⟩ := exists_addressMap (not_not.1 ha) hu
    exact ⟨t, (aligned_iff off).2 (not_not.1 ha), hm, standsAt_of_addressMap hm⟩
  have cmdOffset (hc : a = 0x008) : off = 0x008#12 := BitVec.eq_of_toNat_eq hc
  obtain ⟨-, -, cmdWrite⟩ := commandWriteFollowsDecode
  obtain ⟨refusedCmd, illegalWord, legalWord, -⟩ := cmdWrite s d
  refine ⟨fun ha => ?misaligned, fun ha hu => ?unmapped, fun ha hr => ?readonly, fun hb hc => ?cmdWhileBusy,
    fun hb ha hd => ?dataWhileBusy, fun ha hu hb => ?performed, fun idle hc => ?cmdWhileIdle⟩
  case misaligned =>
    have error := checkAccess_misaligned (s := s) ha
    exact ⟨memRead_of_error (error _), memWrite_of_error d (error _) (.inl nofun)⟩
  case unmapped =>
    have error := checkAccess_unmapped (s := s) (not_not.1 ha) hu
    exact ⟨memRead_of_error (error _), memWrite_of_error d (error _) (.inl nofun)⟩
  case readonly =>
    obtain ⟨t, aligned, mapped, stands⟩ := target ha (by omega)
    exact memWrite_readonly d s aligned mapped (stands.readonly_iff.2 hr)
  case cmdWhileBusy =>
    rw [cmdOffset hc]
    exact refusedCmd hb
  case dataWhileBusy =>
    obtain ⟨t, aligned, mapped, stands⟩ := target ha (by omega)
    have waits (isWrite) : t.refusedWhileBusy isWrite = true := (stands.refused_iff isWrite).2 (.inr hd)
    exact ⟨memRead_refused aligned mapped hb (waits _), fun notOut =>
      memWrite_refused d aligned mapped hb (stands.writable (by omega) notOut) (waits _) (by omega)⟩
  case performed =>
    obtain ⟨t, aligned, mapped, stands⟩ := target ha hu
    refine ⟨t, mapped, memRead_mapped aligned mapped (hb.imp_right (stands.waitless nofun)),
      fun ⟨notId, notOut, hc⟩ => memWrite_performed d aligned mapped (stands.writable notId notOut) ?_⟩
    rcases hb with idle | notData
    · exact .inl idle
    · exact hc.imp_right fun notCmd => stands.waitless (fun _ => notCmd) notData
  case cmdWhileIdle =>
    rw [cmdOffset hc]
    exact ⟨illegalWord idle, legalWord idle⟩

end Sys2Proof.Machine
end

section
/-! The opcode table against the decoder (R75 to R79): the bits of a table row read as a command exactly if they are the
command's word. -/

namespace Sys2Proof

/-- A table row's bits decode to a command exactly if, cut to the row's width, they are the command's word (R75). -/
theorem decodeTableWord_eq_some_iff (nbits w : Nat) (i : Instr) :
    decodeTableWord nbits w = some i ↔ w % 2 ^ nbits = (encode i).toNat := by
  unfold decodeTableWord
  split
  case isTrue fits =>
    have word : (BitVec.ofNat 32 (w % 2 ^ nbits)).toNat = w % 2 ^ nbits := Nat.mod_eq_of_lt fits
    rw [← word, BitVec.toNat_inj, ← decode_eq_ok_iff, word]
    cases decode (BitVec.ofNat 32 (w % 2 ^ nbits)) <;> simp
  case isFalse tooWide =>
    have bound := (encode i).isLt
    simp only [reduceCtorEq, false_iff]
    omega

/-- Settles O2: the round trip, and that a word decodes exactly if it is the encoding of a command. -/
theorem decodeAndEncodeAgree : Obligations.DecodeAndEncodeAgree :=
  ⟨decode_encode, fun _ _ => encode_of_decode, fun d => (decode_isOk_iff d).symm, fun nbits w i _ fits => by
    rw [decodeTableWord_eq_some_iff, Nat.mod_eq_of_lt fits]⟩

/-- Settles O4: three of the words are encodings, and the decoder finds the others' errors by their values. -/
theorem writtenOutWordsDecode : Obligations.WrittenOutWordsDecode :=
  ⟨decode_encode .csc, decode_encode .dct, decode_encode .run, (decode_eq _).trans rfl, (decode_eq _).trans rfl⟩

end Sys2Proof
end

section
/-! The invariant (R20, R22, R28, R30, R39): it holds at reset, and each of the four kinds of event keeps it. -/

namespace Sys2Proof.Machine

/-- Settles O13: nothing is listed, no bit is set, no command is in progress. -/
theorem invariantAtReset : Obligations.InvariantAtReset :=
  ⟨⟨Memory.wf_nil _, Memory.wf_nil _, Memory.wf_nil _⟩, by decide, rfl, fun busy => absurd busy (by decide), .inl rfl⟩

/-- A completion keeps the invariant: each stage does, and so does the end of the command (R40). -/
theorem Inv_exec {i : Instr} {s t : State} (inv : s.Inv) (h : exec i s = .next t) : t.Inv := by
  cases i <;> cases h
  case csc => exact Inv_complete _ (Inv_performCsc inv)
  case lsh => exact Inv_complete _ (Inv_performLsh inv)
  case dct => exact Inv_complete _ (Inv_performDct inv)
  case qnt => exact Inv_complete _ (Inv_performQnt inv)
  case run => exact Inv_complete _ (Inv_performQnt (Inv_performDct (Inv_performLsh (Inv_performCsc inv))))

/-- Settles O14, by the kind of the event (R67). -/
theorem stepKeepsInvariant : Obligations.StepKeepsInvariant := by
  intro s t inv h
  have inv' : (dropTurn s).Inv := Inv_dropTurn inv
  rcases step_cases s with ⟨-, e⟩ | ⟨-, e⟩ | ⟨op, -, -, e⟩ | ⟨-, -, e⟩ <;> rw [e] at h
  · cases h; exact Inv_hostTurn inv'
  · cases h; exact Inv_applyReset (dropTurn s)
  · exact Inv_exec inv' h
  · cases h; exact inv'

end Sys2Proof.Machine
end

section
/-! Whose event comes next (R67, R157, R170), and the events themselves: the turn read off the schedule, what each kind of
turn leaves, and the statements about one step. -/

namespace Sys2Proof.Machine

variable {s t : State} {op : Instr} {line : HostLine} {rest : List HostLine} {turn : Turn} {turns : List Turn}

/-! ### The schedule -/

theorem nextTurn_of_scheduled (h : s.sched = turn :: turns) : nextTurn s = turn := by rw [nextTurn, h]

theorem nextTurn_of_unscheduled (h : s.sched = []) : nextTurn s = if busy s then .engine else .host := by
  rw [nextTurn, h]

theorem dropTurn_of_scheduled (h : s.sched = turn :: turns) : dropTurn s = { s with sched := turns } := by
  rw [dropTurn, h, List.tail_cons]

/-- Where nothing is scheduled an event takes nothing off the schedule. -/
theorem dropTurn_of_unscheduled (h : s.sched = []) : dropTurn s = s := by
  rw [dropTurn, h, List.tail_nil, ← h]

theorem busy_of_phase (h : s.phase = .busy op) : busy s = true := (busy_iff s).2 ⟨op, h⟩

/-! ### One step -/

/-- An engine turn completes the command in progress (R40). -/
theorem step_of_engine (h : nextTurn s = .engine) (pending : s.phase = .busy op) : step s = exec op (dropTurn s) := by
  simp [step, h, pending]

/-- A host turn performs the next line (R83). -/
theorem step_of_hostLine (h : nextTurn s = .host) (hline : s.host = line :: rest) :
    step s = .next (hostStep line rest (dropTurn s)) := by
  rw [step_of_host h, hostTurn, dropTurn_host, hline]

/-- Settles O8: a host turn, a reset and a turn that passes answer a next state at once, and every command completes. -/
theorem machineNeverStops : Obligations.MachineNeverStops := by
  have completes (i : Instr) (s : State) : ∃ t, exec i s = .next t := by
    obtain ⟨t, h, -⟩ := exec_completes i s
    exact ⟨t, h⟩
  refine ⟨fun s => ?_, completes⟩
  rcases step_cases s with ⟨-, e⟩ | ⟨-, e⟩ | ⟨op, -, -, e⟩ | ⟨-, -, e⟩ <;> rw [e]
  case inr.inr.inl => exact completes op (dropTurn s)
  all_goals exact ⟨_, rfl⟩

/-- Settles O5: both schedules give the turn to the engine, and the step takes that turn off the schedule, if it is on it. -/
theorem stepRunsPendingCommand : Obligations.StepRunsPendingCommand := by
  intro s i pending
  refine ⟨fun unscheduled => ?_, fun turns scheduled => ?_⟩
  · have engine : nextTurn s = .engine := by rw [nextTurn_of_unscheduled unscheduled, if_pos (busy_of_phase pending)]
    rw [step_of_engine engine pending, dropTurn_of_unscheduled unscheduled]
  · rw [step_of_engine (nextTurn_of_scheduled scheduled) pending, dropTurn_of_scheduled scheduled]

/-! ### A placed command word (log entry 4) -/

theorem placeWord_of_legal {d : Word} (h : decode d = .ok op) (s : State) :
    placeWord d s = { accept op s with sched := if s.sched = [] then [] else .engine :: s.sched } := by
  rw [placeWord, h]

/-- Where nothing is scheduled, placing a legal word is its accept (R39). -/
theorem placeWord_of_unscheduled {d : Word} (h : decode d = .ok op) (unscheduled : s.sched = []) :
    placeWord d s = accept op s := by
  rw [placeWord_of_legal h, if_pos unscheduled, ← unscheduled]
  rfl

/-- A step after a legal word is placed is the command's completion from its accept. -/
theorem step_placeWord {d : Word} (h : decode d = .ok op) (s : State) : step (placeWord d s) = exec op (accept op s) := by
  have pending : (placeWord d s).phase = .busy op := by rw [placeWord_of_legal h]; rfl
  obtain ⟨atOnce, scheduled⟩ := stepRunsPendingCommand (placeWord d s) op pending
  by_cases unscheduled : s.sched = []
  · rw [placeWord_of_unscheduled h unscheduled] at atOnce ⊢
    exact atOnce unscheduled
  · have engineFirst : (placeWord d s).sched = .engine :: s.sched := by
      rw [placeWord_of_legal h, if_neg unscheduled]
    rw [scheduled s.sched engineFirst, placeWord_of_legal h]
    rfl

/-- Settles O6: the table word decodes, so placing it is its accept, and the completion step is next. -/
theorem placedWordRunsNext : Obligations.PlacedWordRunsNext := by
  intro s nbits w i h
  have legal := decodeTableWord_eq h
  have runs : step (s.withFetchWord nbits w) = exec i (accept i s) := step_placeWord legal s
  refine ⟨runs, fun unscheduled => ?_⟩
  rw [runs, State.withFetchWord, placeWord_of_unscheduled legal unscheduled]

/-! ### A host turn (R83) -/

/-- Settles O7: on a host turn the step is that of the line at the head of the program. -/
theorem hostTurnPerformsOneLine : Obligations.HostTurnPerformsOneLine := by
  intro s line rest turns hline order
  have performs : step s = .next (hostStep line rest { s with sched := turns }) := by
    rcases order with scheduled | ⟨unscheduled, rfl, idle⟩
    · rw [step_of_hostLine (nextTurn_of_scheduled scheduled) hline, dropTurn_of_scheduled scheduled]
    · have host : nextTurn s = .host := by rw [nextTurn_of_unscheduled unscheduled, idle]; rfl
      rw [step_of_hostLine host hline, dropTurn_of_unscheduled unscheduled, ← unscheduled]
  refine ⟨fun off d h => ?write, fun off h => ?read, fun off d h => ?expect, fun off mask value h => ?poll⟩ <;>
    subst h <;> rw [performs]
  case write => simp only [hostStep, noteReply, memWrite_replies]
  all_goals rfl

/-- Settles O11: the frame of a host turn while a command is in progress. -/
theorem busyHostTurnTouchesNoData : Obligations.BusyHostTurnTouchesNoData := by
  intro s hb host
  obtain ⟨ctrl, phase, hin, hwb, hout, resets, transpose, done, range8, -⟩ := hostTurn_busy (dropTurn s) hb
  exact ⟨_, step_of_host host, ctrl, phase, hin, hwb, hout, resets, transpose, done, range8⟩

/-! ### A reset turn (R170) -/

theorem statusWord_applyReset (s : State) : statusWord (applyReset s) = 0 := by
  simp [statusWord, busy]

theorem irq_applyReset (s : State) : irq (applyReset s) = false := rfl

/-- Settles O60: a reset turn and the reset state list no entry and hold no bit. -/
theorem resetLeavesTheResetState : Obligations.ResetLeavesTheResetState := fun _ h =>
  have unwritten (n : Nat) : Memory.read ([] : Memory Byte) n = none ∧ Memory.read ([] : Memory Word) n = none ∧
      Memory.read ([] : Memory Half) n = none := ⟨Memory.read_nil n, Memory.read_nil n, Memory.read_nil n⟩
  ⟨_, step_of_reset h, rfl, statusWord_applyReset _, rfl, irq_applyReset _, unwritten, rfl, rfl, rfl,
    rfl, rfl, rfl, rfl, unwritten⟩

end Sys2Proof.Machine
end

section
/-! A command in progress (R26, R64, R181): a host turn leaves it pending with its operands, an engine turn completes it, and
the schedule holds finitely many host turns before that. -/

namespace Sys2Proof.Machine

variable {s t u : State} {op : Instr} {k : Nat}

/-- From s to u the command `op` has stayed in progress, and nothing it reads has changed. -/
def StillPending (op : Instr) (s u : State) : Prop := u.phase = .busy op ∧ u.ctrl = s.ctrl ∧ KeepsBuffers s u

/-- Within k steps the command `op` completes from s, and stays in progress with its operands until then. -/
def CompletesWithin (k : Nat) (op : Instr) (s : State) : Prop :=
  ∃ (n : Nat) (t : State), 1 ≤ n ∧ n ≤ k ∧ Sys2Proof.core.run n s = .next t ∧ t.phase = .idle ∧ t.done = true ∧
    t.ctrl = s.ctrl ∧ ∀ m < n, ∃ u : State, Sys2Proof.core.run m s = .next u ∧ StillPending op s u

theorem stillPending_self (pending : s.phase = .busy op) : StillPending op s s :=
  ⟨pending, rfl, keepsBuffers_of_eq rfl rfl rfl rfl⟩

theorem StillPending.phase (h : StillPending op s u) : u.phase = .busy op := h.1

theorem StillPending.ctrl (h : StillPending op s u) : u.ctrl = s.ctrl := h.2.1

theorem KeepsBuffers.trans (h : KeepsBuffers s t) (h' : KeepsBuffers t u) : KeepsBuffers s u := by
  obtain ⟨hin, hwb, hout⟩ := h
  obtain ⟨hin', hwb', hout'⟩ := h'
  exact ⟨fun b => (hin' b).trans (hin b), fun n hn => (hwb' n hn).trans (hwb n hn),
    fun n hn => (hout' n hn).trans (hout n hn)⟩

theorem StillPending.trans (h : StillPending op s t) (h' : StillPending op t u) : StillPending op s u := by
  obtain ⟨-, ctrl, buffers⟩ := h
  obtain ⟨pending, ctrl', buffers'⟩ := h'
  exact ⟨pending, ctrl'.trans ctrl, buffers.trans buffers'⟩

/-- A host turn leaves the command pending, and takes its turn off the schedule (R64). -/
theorem hostTurn_stillPending (pending : s.phase = .busy op) :
    StillPending op s (hostTurn (dropTurn s)) ∧ (hostTurn (dropTurn s)).sched = s.sched.tail := by
  obtain ⟨ctrl, phase, hin, hwb, hout, resets, -, -, -, sched⟩ := hostTurn_busy (dropTurn s) (busy_of_phase pending)
  exact ⟨⟨phase.trans pending, ctrl, keepsBuffers_of_eq hin hwb hout resets⟩, sched⟩

/-- The last of the steps is the engine turn. -/
theorem completesWithin_of_engine (pending : s.phase = .busy op) (turn : nextTurn s = .engine) (hk : 1 ≤ k) :
    CompletesWithin k op s := by
  obtain ⟨t, completes, ⟨done, -, idle, ctrl, -⟩, -⟩ := exec_completes op (dropTurn s)
  have step : step s = .next t := by rw [step_of_engine turn pending, completes]
  refine ⟨1, t, le_rfl, hk, run_succ 0 s t step, idle, done, ctrl, fun m hm => ?_⟩
  obtain rfl : m = 0 := by omega
  exact ⟨s, rfl, stillPending_self pending⟩

/-- A step that leaves the command pending puts its completion off by one. -/
theorem CompletesWithin.of_step (completes : CompletesWithin k op t) (pending : s.phase = .busy op)
    (step : step s = .next t) (still : StillPending op s t) : CompletesWithin (k + 1) op s := by
  obtain ⟨n, x, -, hk, run, idle, done, ctrl, before⟩ := completes
  refine ⟨n + 1, x, by omega, by omega, (run_succ n s t step).trans run, idle, done, ctrl.trans still.ctrl, fun m hm => ?_⟩
  cases m with
  | zero => exact ⟨s, rfl, stillPending_self pending⟩
  | succ m =>
    obtain ⟨u, run, later⟩ := before m (by omega)
    exact ⟨u, (run_succ m s t step).trans run, still.trans later⟩

/-- By induction on the schedule: its first engine turn, or the end of it, completes the command. -/
theorem completesWithin_schedule (pending : s.phase = .busy op) (noReset : Turn.reset ∉ s.sched) :
    CompletesWithin (s.sched.length + 1) op s := by
  induction h : s.sched generalizing s with
  | nil =>
    have engine : nextTurn s = .engine := by rw [nextTurn_of_unscheduled h, if_pos (busy_of_phase pending)]
    exact completesWithin_of_engine pending engine (by omega)
  | cons turn turns ih =>
    rw [h] at noReset
    have first := nextTurn_of_scheduled h
    cases turn with
    | reset => exact absurd List.mem_cons_self noReset
    | engine => exact completesWithin_of_engine pending first (by omega)
    | host =>
      obtain ⟨still, sched⟩ := hostTurn_stillPending pending
      rw [h, List.tail_cons] at sched
      have noResetLater : Turn.reset ∉ (hostTurn (dropTurn s)).sched := by
        rw [sched]
        exact mt (List.mem_cons_of_mem _) noReset
      exact (ih still.phase noResetLater sched).of_step pending (step_of_host first) still

/-- Settles O9, from the induction on the schedule. -/
theorem pendingCommandCompletes : Obligations.PendingCommandCompletes := fun _ _ => completesWithin_schedule

end Sys2Proof.Machine
end

section
/-! The two orders of a completion and a host transaction (R157). The completion reads and writes neither the schedule nor
the host's program, and a host line does not see the schedule, so each order is the two events one after the other. -/

namespace Sys2Proof.Machine

variable {s t c : State} {op : Instr} {line : HostLine} {rest : List HostLine}

/-! ### The schedule has no part in an event -/

theorem memWrite_dropTurn (off : Offset) (d : Word) (s : State) :
    memWrite off d (dropTurn s) = (dropTurn (memWrite off d s).1, (memWrite off d s).2) := by
  rw [memWrite, memWrite, checkAccess_congr (dropTurn_busy s)]
  cases checkAccess true off s with
  | error e =>
    simp only [refuseWrite]
    split <;> rfl
  | ok target =>
    cases target with
    | cmd =>
      simp only [writeTarget, writeCmd]
      split <;> rfl
    | _ => rfl

theorem hostStep_dropTurn (line : HostLine) (rest : List HostLine) (s : State) :
    hostStep line rest (dropTurn s) = dropTurn (hostStep line rest s) := by
  cases line with
  | write off d => simp only [hostStep, memWrite_dropTurn]; rfl
  | _ => rfl

theorem exec_dropTurn (h : exec op s = .next t) : exec op (dropTurn s) = .next (dropTurn t) := by
  cases op <;> cases h <;> rfl

/-! ### The two runs -/

theorem run_two {x y : State} (h : step s = .next x) (h' : step x = .next y) : Sys2Proof.core.run 2 s = .next y := by
  rw [run_succ 1 s x h, run_succ 0 x y h']
  rfl

/-- Host first: the line's transaction, then the completion from what it left. -/
theorem run_host_engine (pending : s.phase = .busy op) (hline : s.host = line :: rest)
    (completes : exec op (hostStep line rest { s with sched := [] }) = .next t) :
    Sys2Proof.core.run 2 { s with sched := [.host, .engine] } = .next t := by
  let s₁ : State := { s with sched := [.engine] }
  have first : step { s with sched := [.host, .engine] } = .next (hostStep line rest s₁) := step_of_hostLine rfl hline
  obtain ⟨-, phase, -, -, -, -, -, -, -, sched⟩ := hostTurn_busy s₁ (busy_of_phase pending)
  rw [hostTurn, show s₁.host = line :: rest from hline] at phase sched
  have engine : nextTurn (hostStep line rest s₁) = .engine := nextTurn_of_scheduled sched
  refine run_two first ?_
  rw [step_of_engine engine (phase.trans pending), ← hostStep_dropTurn]
  exact completes

/-- Engine first: the completion, then the line's transaction on what it left. -/
theorem run_engine_host (pending : s.phase = .busy op) (hline : s.host = line :: rest)
    (completes : exec op { s with sched := [] } = .next c) :
    Sys2Proof.core.run 2 { s with sched := [.engine, .host] } = .next (hostStep line rest c) := by
  let s₁ : State := { s with sched := [.host] }
  obtain ⟨x, first, ⟨-, -, -, -, -, host, sched, -⟩, -⟩ := exec_completes op s₁
  obtain rfl : dropTurn x = c := Host.Outcome.next.inj ((exec_dropTurn first).symm.trans completes)
  exact run_two ((step_of_engine (s := { s with sched := [.engine, .host] }) rfl pending).trans first)
    (step_of_hostLine (nextTurn_of_scheduled sched) (host.trans hline))

/-! ### The outcomes that differ -/

theorem hostStep_write (off : Offset) (d : Word) (rest : List HostLine) (s : State) :
    hostStep (.write off d) rest s = noteReply (.wrote off d (memWrite off d s).2) rest (memWrite off d s).1 := rfl

theorem hostStep_read (off : Offset) (rest : List HostLine) (s : State) :
    hostStep (.read off) rest s = noteReply (.got off (memRead off s).1 (memRead off s).2 none) rest s := rfl

/-- A STATUS read is answered with the flags of the state it is made in (R63). -/
theorem hostStep_readStatus_replies (rest : List HostLine) (s : State) :
    ∃ x, (hostStep (.read 0x00C#12) rest s).replies = .got 0x00C#12 x none none :: s.replies ∧
      x.getLsbD 0 = busy s ∧ x.getLsbD 1 = s.done := by
  obtain ⟨busy, done, -⟩ := statusWord_fields s
  exact ⟨statusWord s, by rw [hostStep_read, memRead_status]; rfl, busy, done⟩

/-- A STATUS write with bit 1 set leaves DONE = 0 (R33). -/
theorem hostStep_clearDone {d : Word} (hd : d.getLsbD 1 = true) (rest : List HostLine) (s : State) :
    (hostStep (.write 0x00C#12 d) rest s).done = false := by
  rw [hostStep_write, memWrite_status, noteReply_done, clearFlags_done, hd, Bool.not_true, Bool.and_false]

/-- A CMD write while busy is refused (R152). -/
theorem hostStep_cmd_of_busy (d : Word) (rest : List HostLine) (hb : busy s = true) :
    hostStep (.write 0x008#12 d) rest s =
      noteReply (.wrote 0x008#12 d (some .busyRefused)) rest (raiseCmdError cmdBusy s) := by
  rw [hostStep_write, memWrite_cmd_resp, memWrite_cmd_of_busy d hb, if_pos hb]

/-- A legal CMD write while idle is an accept (R39). -/
theorem hostStep_cmd_of_legal {d : Word} (rest : List HostLine) (idle : busy s = false) (legal : decode d = .ok op) :
    hostStep (.write 0x008#12 d) rest s = noteReply (.wrote 0x008#12 d none) rest (accept op s) := by
  rw [hostStep_write, memWrite_cmd_resp_of_idle d idle, memWrite_cmd_of_legal idle legal]

/-- Settles O10: in the first order the line meets the busy state s, in the second the completed state c. -/
theorem eitherOrderOfCompletionAndTransaction : Obligations.EitherOrderOfCompletionAndTransaction := by
  intro s op line rest pending hline
  let s₀ : State := { s with sched := [] }
  have busy₀ : busy s₀ = true := busy_of_phase pending
  obtain ⟨a, completesA, ⟨doneA, -, idleA, -, ⟨errA, errcodeA⟩, -, -, repliesA, -⟩, -⟩ :=
    exec_completes op (hostStep line rest s₀)
  obtain ⟨c, completesC, ⟨doneC, -, -, -, -, -, -, repliesC, -⟩, -⟩ := exec_completes op s₀
  have idleC : busy c = false := exec_idle completesC
  refine ⟨a, hostStep line rest c, c, run_host_engine pending hline completesA, completesA,
    run_engine_host pending hline completesC, completesC, rfl, ?readStatus, ?clearDone, ?writeCmd⟩
  case readStatus =>
    rintro rfl
    obtain ⟨x, replies, hb, -⟩ := hostStep_readStatus_replies rest s₀
    obtain ⟨y, replies', idle, done⟩ := hostStep_readStatus_replies rest c
    rw [repliesC] at replies'
    exact ⟨⟨x, repliesA.trans replies, hb.trans busy₀⟩, y, replies', idle.trans idleC, done.trans doneC⟩
  case clearDone =>
    rintro d hd rfl
    exact ⟨doneA, hostStep_clearDone hd rest c⟩
  case writeCmd =>
    rintro d rfl
    rw [hostStep_cmd_of_busy d rest busy₀] at errA errcodeA repliesA
    refine ⟨⟨repliesA, errA, errcodeA, idleA⟩, fun op' legal => ?_⟩
    rw [hostStep_cmd_of_legal rest idleC legal, noteReply_replies, accept_replies, repliesC]
    exact ⟨rfl, rfl⟩

end Sys2Proof.Machine
end

section
/-! Who writes the buffers (R34 to R36, R41, R44): what each kind of event leaves of IN, WB, OUT and the transpose buffer, as
the lists they are. -/

namespace Sys2Proof.Machine

variable {s t : State} {i : Instr}

/-! ### A host turn -/

/-- A host write reaches neither OUT, nor the transpose buffer, nor the reset count. -/
theorem memWrite_frame (off : Offset) (d : Word) (s : State) :
    (memWrite off d s).1.out = s.out ∧ (memWrite off d s).1.resets = s.resets ∧
      (memWrite off d s).1.transpose = s.transpose := by
  rcases memWrite_cases off d s with ⟨_, h⟩ | ⟨-, h⟩ | ⟨target, -, h⟩ <;> rw [h]
  · exact ⟨rfl, rfl, rfl⟩
  · exact ⟨rfl, rfl, rfl⟩
  · rcases writeTarget_cases target d s with h | h | ⟨_, -, h⟩ | h | h | ⟨_, -, h⟩ | ⟨_, -, h⟩ <;> rw [h] <;>
      exact ⟨rfl, rfl, rfl⟩

theorem hostTurn_frame (s : State) :
    (hostTurn s).out = s.out ∧ (hostTurn s).resets = s.resets ∧ (hostTurn s).transpose = s.transpose := by
  rw [hostTurn]
  split
  · exact ⟨rfl, rfl, rfl⟩
  · next line rest _ =>
    rcases hostStep_cases line rest s with ⟨_, _, h⟩ | ⟨off, d, _, -, h⟩ <;> rw [h]
    · exact ⟨rfl, rfl, rfl⟩
    · exact memWrite_frame off d s

/-! ### A completion -/

theorem exec_inBuf (h : exec i s = .next t) : t.inBuf = s.inBuf := by
  cases i <;> cases h <;> rfl

theorem exec_resets (h : exec i s = .next t) : t.resets = s.resets := by
  obtain ⟨⟨-, -, -, -, -, -, -, -, resets⟩, -⟩ := exec_completedWith h
  exact resets

theorem exec_out (h : exec i s = .next t) (hq : i ≠ .qnt) (hr : i ≠ .run) : t.out = s.out := by
  cases i
  case qnt => exact absurd rfl hq
  case run => exact absurd rfl hr
  all_goals cases h; rfl

theorem exec_qnt_wb (h : exec .qnt s = .next t) : t.wb = s.wb := by
  cases h; rfl

theorem exec_transpose (h : exec i s = .next t) (hd : i ≠ .dct) (hr : i ≠ .run) : t.transpose = s.transpose := by
  cases i
  case dct => exact absurd rfl hd
  case run => exact absurd rfl hr
  all_goals cases h; rfl

/-- DCT leaves the row results of its last plane (R41). -/
theorem exec_dct_transpose (h : exec .dct s = .next t) : t.transpose = rowPass (wbPlane s (np s - 1)) := by
  cases h; rfl

/-- The row results of a plane of WB (R108). -/
theorem rowPass_wbPlane_entry (s : State) (c : Nat) {j v : Nat} (hj : j < 8) (hv : v < 8) :
    (rowPass (wbPlane s c)).getD (8 * j + v) 0 =
      rndShr (∑ k ∈ Finset.range 8, wbInt s c (8 * j + k) * cosK v k) 14 := by
  rw [rowPass_entry _ hj hv]
  congr 1
  refine Finset.sum_congr rfl fun k hk => ?_
  rw [Finset.mem_range] at hk
  rw [wbPlane_getD s c (by omega)]

/-! ### One step -/

theorem step_engine_cases (turn : nextTurn s = .engine) (h : step s = .next t) :
    (s.phase = .idle ∧ t = dropTurn s) ∨ ∃ op, s.phase = .busy op ∧ exec op (dropTurn s) = .next t := by
  rw [step, turn] at h
  cases phase : s.phase with
  | idle =>
    simp only [phase] at h
    cases h
    exact .inl ⟨rfl, rfl⟩
  | busy op =>
    simp only [phase] at h
    exact .inr ⟨op, rfl, h⟩

theorem step_host_frame (turn : nextTurn s = .host) (h : step s = .next t) :
    t.out = s.out ∧ t.resets = s.resets ∧ t.transpose = s.transpose := by
  rw [step_of_host turn] at h
  cases h
  exact hostTurn_frame (dropTurn s)

theorem step_engine_frame (turn : nextTurn s = .engine) (h : step s = .next t) :
    t.inBuf = s.inBuf ∧ t.resets = s.resets := by
  rcases step_engine_cases turn h with ⟨-, rfl⟩ | ⟨op, -, completes⟩
  · exact ⟨rfl, rfl⟩
  · exact ⟨(exec_inBuf completes).trans (dropTurn_inBuf s), (exec_resets completes).trans (dropTurn_resets s)⟩

theorem step_engine_out (turn : nextTurn s = .engine) (h : step s = .next t) (hq : s.phase ≠ .busy .qnt)
    (hr : s.phase ≠ .busy .run) : t.out = s.out := by
  rcases step_engine_cases turn h with ⟨-, rfl⟩ | ⟨op, pending, completes⟩
  · rfl
  · exact (exec_out completes (fun e => hq (e ▸ pending)) (fun e => hr (e ▸ pending))).trans (dropTurn_out s)

theorem step_engine_wb (turn : nextTurn s = .engine) (h : step s = .next t) (hp : s.phase = .idle ∨ s.phase = .busy .qnt) :
    t.wb = s.wb := by
  rcases step_engine_cases turn h with ⟨-, rfl⟩ | ⟨op, pending, completes⟩
  · rfl
  · obtain rfl : op = .qnt := by simpa [pending] using hp
    exact (exec_qnt_wb completes).trans (dropTurn_wb s)

theorem step_reset_buffers (turn : nextTurn s = .reset) (h : step s = .next t) :
    t.inBuf = [] ∧ t.wb = [] ∧ t.out = [] ∧ t.transpose = [] := by
  rw [step_of_reset turn] at h
  cases h
  exact ⟨rfl, rfl, rfl, rfl⟩

theorem step_transpose (noReset : nextTurn s ≠ .reset) (h : step s = .next t) (hd : s.phase ≠ .busy .dct)
    (hr : s.phase ≠ .busy .run) : t.transpose = s.transpose := by
  cases turn : nextTurn s with
  | reset => exact absurd turn noReset
  | host =>
    obtain ⟨-, -, transpose⟩ := step_host_frame turn h
    exact transpose
  | engine =>
    rcases step_engine_cases turn h with ⟨-, rfl⟩ | ⟨op, pending, completes⟩
    · rfl
    · exact (exec_transpose completes (fun e => hd (e ▸ pending)) (fun e => hr (e ▸ pending))).trans
        (dropTurn_transpose s)

theorem step_dct_transpose (turn : nextTurn s = .engine) (h : step s = .next t) (pending : s.phase = .busy .dct) :
    t.transpose = rowPass (wbPlane s (np s - 1)) := by
  rw [step_of_engine turn pending] at h
  exact exec_dct_transpose (s := dropTurn s) h

/-- Settles O12: one lemma for each kind of event and buffer. -/
theorem whoWritesTheBuffers : Obligations.WhoWritesTheBuffers := by
  intro s
  obtain ⟨t, h⟩ := machineNeverStops.1 s
  refine ⟨t, h, fun turn => ?_, fun turn => step_engine_frame turn h, fun turn => step_engine_out turn h,
    fun turn => step_engine_wb turn h, fun turn => step_reset_buffers turn h, fun noReset => step_transpose noReset h,
    fun turn pending j hj v hv => ?_⟩
  · obtain ⟨out, resets, -⟩ := step_host_frame turn h
    exact ⟨out, resets⟩
  · rw [step_dct_transpose turn h pending, rowPass_wbPlane_entry s _ hj hv]

end Sys2Proof.Machine
end

section
/-! Unwritten entries (R44, U1) and the fill pattern (R84). -/

namespace Sys2Proof.Machine

variable {s : State} {n : Nat}

theorem inByte_of_unwritten (h : Memory.read s.inBuf n = none) : inByte s n = Config.unwrittenIn s.resets n := by
  rw [inByte, h, Option.getD_none]

theorem wbEntry_of_unwritten (h : Memory.read s.wb n = none) : wbEntry s n = Config.unwrittenWb s.resets n := by
  rw [wbEntry, h, Option.getD_none]

theorem outEntry_of_unwritten (h : Memory.read s.out n = none) : outEntry s n = Config.unwrittenOut s.resets n := by
  rw [outEntry, h, Option.getD_none]

/-- Settles O58: while idle the port performs the read and the write, and the write sets its own entry only. -/
theorem unwrittenEntriesReadFree : Obligations.UnwrittenEntriesReadFree := by
  intro s c k d idle hc hk
  have mapped := addressMap_wbOffset c k hc hk
  refine ⟨fun unwritten => ?_, fun unwritten => ?_, fun b => inByte_of_unwritten, fun n hn => ?_⟩
  · rw [memRead_mapped (wbOffset_aligned c k) mapped (.inl idle), readTarget, wbEntry_of_unwritten unwritten]
  · rw [memRead_mapped (outOffset_aligned c k) (addressMap_outOffset c k hc hk) (.inl idle), readTarget,
      outEntry_of_unwritten unwritten]
  · rw [memWrite_mapped d (wbOffset_aligned c k) mapped rfl idle, writeTarget, writeWb_wb, Memory.read_write_other _ _ hn]

/-- Word w of the fill pattern: its four bytes in little-endian order (R56, R84). -/
def fillWord (b0 b1 b2 : Byte) (w : Nat) : Word :=
  packBytes (fillByte b0 b1 b2 (4 * w)) (fillByte b0 b1 b2 (4 * w + 1)) (fillByte b0 b1 b2 (4 * w + 2))
    (fillByte b0 b1 b2 (4 * w + 3))

theorem fillWord_byte (b0 b1 b2 : Byte) (w : Nat) {b : Nat} (hb : b < 4) :
    (fillWord b0 b1 b2 w).extractLsb' (8 * b) 8 = fillByte b0 b1 b2 (4 * w + b) := by
  rw [fillWord, packBytes_byte _ _ _ _ b hb]
  interval_cases b <;> rfl

theorem linesFillin_length (b0 b1 b2 : Byte) : (linesFillin b0 b1 b2).length = 48 := by
  rw [linesFillin, List.length_map, List.length_range]

theorem linesFillin_getElem? (b0 b1 b2 : Byte) {w : Nat} (hw : w < 48) :
    (linesFillin b0 b1 b2)[w]? = some (lineWin w (fillWord b0 b1 b2 w)) := by
  rw [linesFillin, List.getElem?_map, List.getElem?_range hw]
  rfl

/-- Settles O59: line w writes the fill word of w, whose byte b is fill byte 4w + b. -/
theorem fillinPattern : Obligations.FillinPattern := fun b0 b1 b2 w hw =>
  ⟨fillWord b0 b1 b2 w, linesFillin_getElem? b0 b1 b2 hw, linesFillin_length b0 b1 b2, fun _ => fillWord_byte b0 b1 b2 w⟩

end Sys2Proof.Machine
end
